-- ==== Sys2Proof/Word.lean ====
section
/-! DEFINITION. The word types of the DREL core: what the spec treats as bits (00_scope.md R5, R6). -/

namespace Sys2Proof

/-- A general register, the program counter and every computed address: `XLEN = 64` bits (R5, R10, R13). -/
abbrev Word := BitVec 64

/-- The unit of addressing, an 8-bit byte (R30). -/
abbrev Byte := BitVec 8

/-- An instruction word: `ILEN = 32` bits, the only length (R5, R50). -/
abbrev InstrWord := BitVec 32

/-- A register index field: `REGIDX = 5` bits, every value legal (R5, R55). -/
abbrev RegIdx := BitVec 5

/-- The number in the opcode field: `OPW = 6` bits (R5, R50). -/
abbrev OpNum := BitVec 6

/-- The immediate and offset field: `IMMW = 16` bits (R5, R54). -/
abbrev Imm16 := BitVec 16

end Sys2Proof
end

