-- ==== Sys2Proof/Config.lean ====
section
/-! DEFINITION. What is fixed for one machine: the implementation parameters of 00_scope.md R5 with their
defaults, the sizes, and the free values of the points the spec leaves open. -/

namespace Sys2Proof

/-- The closed enumeration of opcode names (R56). `li` is a name only: no assembled word carries its number
and no arm of the dispatch executes it (90_conflicts.md C2). -/
inductive Opcode where
  | exit | add | addi | li | beq | jmp | sub
  deriving DecidableEq, Repr

/-- The parameter `OPMAP` (R5, R56): the 6-bit number of each opcode name. Only `exit = 0` is the source's; the
other defaults are the spec's decision D1 (notes/assumptions/1.md). -/
structure OpMap where
  exit : OpNum := 0
  add : OpNum := 1
  addi : OpNum := 2
  li : OpNum := 3
  beq : OpNum := 4
  jmp : OpNum := 5
  sub : OpNum := 6
  deriving DecidableEq, Repr

/-- The number a map gives a name (R56). -/
def OpMap.number (m : OpMap) : Opcode → OpNum
  | .exit => m.exit
  | .add => m.add
  | .addi => m.addi
  | .li => m.li
  | .beq => m.beq
  | .jmp => m.jmp
  | .sub => m.sub

/-- The parameter `BYTE_ORDER` (R5, R31): decision D2 (notes/assumptions/2.md) makes the default little. -/
inductive ByteOrder where
  | little | big
  deriving DecidableEq, Repr

/-- The parameter `MISALIGNED_FETCH` (R5, R33): what a fetch at a pc that is not a multiple of 4 does. -/
inductive MisalignedFetch where
  /-- Halt with cause FETCH_MISALIGNED (decision D3, the default; notes/assumptions/3.md). -/
  | fault
  /-- Read the four bytes at `pc` to `pc + 3` with no alignment check. -/
  | bytewise
  deriving DecidableEq, Repr

/-- The parameter `OOB_FETCH` (R5, R34): the spec offers one value, the FETCH_OUT_OF_RANGE fault (decision D4,
notes/assumptions/4.md). -/
inductive OobFetch where
  | fault
  deriving DecidableEq, Repr

/-- The parameter `LI_SLOT` (R5, R59, R124): what a fetched word with the number of the name LI does. -/
inductive LiSlotChoice where
  /-- Halt with cause ILLEGAL_OPCODE (decision D5, the default; notes/assumptions/5.md). -/
  | fault
  /-- Give a program that contains it no meaning. -/
  | refuse
  deriving DecidableEq, Repr

/-- The parameters of R5 that a model takes as named arguments; the defaults are the spec's. -/
structure Params where
  opMap : OpMap := {}
  byteOrder : ByteOrder := .little
  misalignedFetch : MisalignedFetch := .fault
  oobFetch : OobFetch := .fault
  liSlot : LiSlotChoice := .fault
  deriving DecidableEq, Repr

/-- The parameters of the machine `Sys2Proof.core`: every default of R5. -/
def Config.params : Params := {}

/-- `MEMSIZE`: bytes of memory, addresses 0 to 65535 (R5, R16). -/
abbrev Config.memSize : Nat := 65536

/-- The highest address a fetch of four bytes can start at, `MEMSIZE - 4` (R34). -/
abbrev Config.lastFetch : Nat := 65532

/-- `IMAGE_BASE`: where a program image is loaded (R5, R36). -/
abbrev Config.imageBase : Nat := 0

/-- `RESET_PC` (R5, R20). -/
abbrev Config.resetPc : Word := 0

/-- FREE VALUE (notes/assumptions/14.md): whether the assembler ignores the surplus operands of a line that has a known
mnemonic and more operands than it takes, or counts the list as malformed. 30_encoding.md R72 covers a missing operand and a malformed list, and
does not say whether a surplus one makes a list malformed. The argument is the line's tokens, the mnemonic in upper case (R64). -/
opaque Config.surplusOperandsIgnored : List (List Char) → Bool

/-- FREE VALUE (notes/assumptions/15.md): whether a minus sign before the digits of an immediate token, but not alone at the
front ('R-8', '--8'), negates the number. 30_encoding.md R65 permits a LEADING minus sign and is silent on the others. -/
opaque Config.strayMinusNegates : List Char → Bool

end Sys2Proof
end

