-- ==== Sys2Proof/Syntax.lean ====
section
/-! DEFINITION. The instructions of the core, one constructor per row of spec/opcode_table.json, and the
statements of the assembler's mini-language. -/

namespace Sys2Proof

/-- The instructions (R56). A register operand is a 5-bit field, every value of which is legal (R55). An
immediate or offset is the SIGNED NUMBER its 16-bit field stands for (R54, R101, R112); that it fits the field is the check of
`Instr.wellFormed`. Bits the decoder does not look at (R58) are no part of an instruction. -/
inductive Instr where
  /-- EXIT: halt the core (43_system.md R120). -/
  | exit
  /-- ADD rd, rs1, rs2 (41_arithmetic.md R100). -/
  | add (rd rs1 rs2 : RegIdx)
  /-- ADDI rd, rs1, imm (41_arithmetic.md R101); LI rd, imm is this with rs1 = 0 (R103). -/
  | addi (rd rs1 : RegIdx) (imm : Int)
  /-- The word with the number of the name LI: the reserved row LI_SLOT (43_system.md R124). -/
  | liSlot
  /-- BEQ rs1, rs2, off: off counts bytes from the next instruction (42_control_transfer.md R110). -/
  | beq (rs1 rs2 : RegIdx) (off : Int)
  /-- JMP off (42_control_transfer.md R111). -/
  | jmp (off : Int)
  /-- SUB rd, rs1, rs2 (41_arithmetic.md R102). -/
  | sub (rd rs1 rs2 : RegIdx)
  deriving DecidableEq, Repr

/-- The name in the opcode field of an instruction (R56). -/
def Instr.opcode : Instr → Opcode
  | .exit => .exit
  | .add _ _ _ => .add
  | .addi _ _ _ => .addi
  | .liSlot => .li
  | .beq _ _ _ => .beq
  | .jmp _ => .jmp
  | .sub _ _ _ => .sub

/-- One parsed assembler statement (R64 to R71). Register numbers and immediates are the numbers as written; the
encoder's masks reduce them (R65). `add` and `addi` are the spec's own notation (R71, decision D12) and no line of
source parses to them. -/
inductive AsmStmt where
  | exit
  | li (rd : Nat) (imm : Int)
  | sub (rd rs1 rs2 : Nat)
  | beq (rs1 rs2 : Nat) (off : Int)
  | jmp (off : Int)
  | add (rd rs1 rs2 : Nat)
  | addi (rd rs1 : Nat) (imm : Int)
  deriving DecidableEq, Repr

end Sys2Proof
end

