-- ==== Sys2Proof/WellFormed.lean ====
section
/-! DEFINITION. The checks: an immediate fits its field, an opcode map is a map the spec allows, a statement of
the assembler loads as written. -/

namespace Sys2Proof

/-- The range of a 16-bit immediate or offset read as a signed number (R54). -/
def immInRange (n : Int) : Bool := decide (-32768 ≤ n) && decide (n ≤ 32767)

/-- The operands of an instruction fit its word. Register operands always do (R55). -/
def Instr.wellFormed : Instr → Bool
  | .exit => true
  | .add _ _ _ => true
  | .addi _ _ imm => immInRange imm
  | .liSlot => true
  | .beq _ _ off => immInRange off
  | .jmp off => immInRange off
  | .sub _ _ _ => true

/-- `OPMAP` is "constrained to be injective and to send EXIT to 0" (R56). -/
def OpMap.wellFormed (m : OpMap) : Bool :=
  decide (m.exit = 0) && decide ([m.exit, m.add, m.addi, m.li, m.beq, m.jmp, m.sub].Nodup)

/-- A parameter choice is allowed when its opcode map is (R5, R56). -/
def Params.wellFormed (p : Params) : Bool := p.opMap.wellFormed

/-- A register number the assembler's grammar allows, 0 to 31 (R65). -/
def asmRegOk (n : Nat) : Bool := decide (n < 32)

/-- The numbers of a statement are in the grammar's ranges, so the encoder's masks change none (R54, R55, R65). -/
def AsmStmt.wellFormed : AsmStmt → Bool
  | .exit => true
  | .li rd imm => asmRegOk rd && immInRange imm
  | .sub rd rs1 rs2 => asmRegOk rd && asmRegOk rs1 && asmRegOk rs2
  | .beq rs1 rs2 off => asmRegOk rs1 && asmRegOk rs2 && immInRange off
  | .jmp off => immInRange off
  | .add rd rs1 rs2 => asmRegOk rd && asmRegOk rs1 && asmRegOk rs2
  | .addi rd rs1 imm => asmRegOk rd && asmRegOk rs1 && immInRange imm

end Sys2Proof
end

