-- ==== Sys2Proof/Decode.lean ====
section
/-! DEFINITION. The decoder (30_encoding.md R63), the choice of the instruction from its opcode (R56, R59), the encoders
(R60), and the byte order of a word in memory (20_memory.md R31). -/

namespace Sys2Proof

/-- `sext_64` (R7): bit 15 of the field is copied into bits 63 to 16. -/
def sext64 (v : Imm16) : Word := v.signExtend 64

/-- `zext_64` (R7): no instruction uses it; the spec lists it for completeness. -/
def zext64 (v : Imm16) : Word := v.setWidth 64

/-- What the decoder block produces for EVERY word (R63, R84). -/
structure Fields where
  op : OpNum
  fa : RegIdx
  fb : RegIdx
  fc : RegIdx
  simm : Word
  deriving DecidableEq, Repr

/-- The decoder: a total function of the word, which validates nothing (R63). -/
def decodeFields (w : InstrWord) : Fields where
  op := w.extractLsb' 26 6
  fa := w.extractLsb' 21 5
  fb := w.extractLsb' 16 5
  fc := w.extractLsb' 11 5
  simm := sext64 (w.extractLsb' 0 16)

/-- The name a number has in the map, if any (R56); an injective map has at most one. -/
def opcodeNamed? (m : OpMap) (n : OpNum) : Option Opcode :=
  if n = m.exit then some .exit
  else if n = m.add then some .add
  else if n = m.addi then some .addi
  else if n = m.li then some .li
  else if n = m.beq then some .beq
  else if n = m.jmp then some .jmp
  else if n = m.sub then some .sub
  else none

/-- Why bytes are no instruction. -/
inductive DecodeError where
  /-- The opcode field is no number of the map (R59); the step then takes ILLEGAL_OPCODE (R131). -/
  | illegalOpcode (op : OpNum)
  /-- Fewer than the four bytes every instruction has (R50); no fetch of the core gives this. -/
  | tooFewBytes
  deriving DecidableEq, Repr

/-- The instruction under a name, its operands taken from the fields its layout uses (R51 to R53, R88). -/
def instrOfFields (f : Fields) : Opcode → Instr
  | .exit => .exit
  | .add => .add f.fa f.fb f.fc
  | .addi => .addi f.fa f.fb f.simm.toInt
  | .li => .liSlot
  | .beq => .beq f.fa f.fb f.simm.toInt
  | .jmp => .jmp f.simm.toInt
  | .sub => .sub f.fa f.fb f.fc

/-- The instruction in a word under an opcode map, on the opcode alone (R58, R59, R88). -/
def decodeWith (m : OpMap) (w : InstrWord) : Except DecodeError Instr :=
  match opcodeNamed? m (decodeFields w).op with
  | some name => .ok (instrOfFields (decodeFields w) name)
  | none => .error (.illegalOpcode (decodeFields w).op)

/-- The instruction in a word of the machine with the default map. -/
def decode (w : InstrWord) : Except DecodeError Instr := decodeWith Config.params.opMap w

/-- Four bytes, at rising addresses, as a word (R31). -/
def wordOfBytes (order : ByteOrder) (b0 b1 b2 b3 : Byte) : InstrWord :=
  match order with
  | .little => b3 ++ b2 ++ b1 ++ b0
  | .big => b0 ++ b1 ++ b2 ++ b3

/-- The four bytes of a word in memory order, lowest address first (R31, R73). -/
def bytesOfWord (order : ByteOrder) (w : InstrWord) : List Byte :=
  match order with
  | .little => [w.extractLsb' 0 8, w.extractLsb' 8 8, w.extractLsb' 16 8, w.extractLsb' 24 8]
  | .big => [w.extractLsb' 24 8, w.extractLsb' 16 8, w.extractLsb' 8 8, w.extractLsb' 0 8]

/-- The instruction at the head of a byte string, and the bytes after it. -/
def decodeBytes (p : Params) : List Byte → Except DecodeError (Instr × List Byte)
  | b0 :: b1 :: b2 :: b3 :: rest =>
    match decodeWith p.opMap (wordOfBytes p.byteOrder b0 b1 b2 b3) with
    | .ok i => .ok (i, rest)
    | .error e => .error e
  | _ => .error .tooFewBytes

/-- The host's question: the decoder's answer on the low `nbits` bits of `w`, laid out as the hardware stores them. -/
def decodeTableWord (nbits w : Nat) : Option Instr :=
  match decodeBytes Config.params (bytesOfWord Config.params.byteOrder (BitVec.ofNat 32 (w % 2 ^ nbits))) with
  | .ok (i, _) => some i
  | .error _ => none

/-- The low 16 bits of the two's complement pattern of a number, `imm & 0xFFFF` (R54, R60). -/
def imm16 (n : Int) : Imm16 := BitVec.ofInt 16 n

/-- The low 5 bits of a register number, `r & 0x1F` (R55, R60). -/
def regField (n : Nat) : RegIdx := BitVec.ofNat 5 n

/-- `encode_R` (R60): the R-Type word (R51), bits 10 to 0 zero. -/
def encodeR (op : OpNum) (rd rs1 rs2 : Nat) : InstrWord :=
  op ++ regField rd ++ regField rs1 ++ regField rs2 ++ (0 : BitVec 11)

/-- `encode_I` (R60): the I-Type word (R52). -/
def encodeI (op : OpNum) (rd rs1 : Nat) (imm : Int) : InstrWord :=
  op ++ regField rd ++ regField rs1 ++ imm16 imm

/-- `encode_B` (R60): the B-Type word (R53). -/
def encodeB (op : OpNum) (rs1 rs2 : Nat) (off : Int) : InstrWord :=
  op ++ regField rs1 ++ regField rs2 ++ imm16 off

/-- The canonical word of an instruction under an opcode map: ignored bits zero (R57, R58, R60). -/
def encodeWith (m : OpMap) : Instr → InstrWord
  | .exit => encodeR (m.number .exit) 0 0 0
  | .add rd rs1 rs2 => encodeR (m.number .add) rd.toNat rs1.toNat rs2.toNat
  | .addi rd rs1 imm => encodeI (m.number .addi) rd.toNat rs1.toNat imm
  | .liSlot => encodeR (m.number .li) 0 0 0
  | .beq rs1 rs2 off => encodeB (m.number .beq) rs1.toNat rs2.toNat off
  | .jmp off => encodeB (m.number .jmp) 0 0 off
  | .sub rd rs1 rs2 => encodeR (m.number .sub) rd.toNat rs1.toNat rs2.toNat

/-- The canonical word of an instruction of the machine with the default map. -/
def encode (i : Instr) : InstrWord := encodeWith Config.params.opMap i

/-- The bits of a word its opcode's layout defines; the others are ignored (R58, R59). -/
def usedBits : Opcode → InstrWord
  | .exit => 0xFC000000
  | .add => 0xFFFFF800
  | .addi => 0xFFFFFFFF
  | .li => 0xFC000000
  | .beq => 0xFFFFFFFF
  | .jmp => 0xFC00FFFF
  | .sub => 0xFFFFF800

end Sys2Proof
end

