-- ==== Sys2Proof/Machine/State.lean ====
section
/-! DEFINITION. The state of the core as plain data (10_state.md), its reset value, and the reasons a step can
stop without a next state. -/

namespace Sys2Proof.Machine

/-- The memory: its bytes by address, sparse, in the canonical form of `Memory.wf` (R16, R30). -/
abbrev Memory := List Host.Cell

/-- What an unlisted address of 0 to 65535 reads as: memory is zeroed at reset (10_state.md R20). -/
abbrev Memory.unlisted : Byte := 0

/-- The tail of a canonical memory: addresses from `lo` up, strictly rising, inside the memory, and no entry that
equals what an unlisted address reads as. -/
def Memory.wfFrom (lo : Nat) : Memory → Bool
  | [] => true
  | (a, b) :: rest =>
    decide (lo ≤ a) && decide (a < Config.memSize) && decide (b ≠ Memory.unlisted) && wfFrom (a + 1) rest

/-- The memory is in its one canonical form, so that equal memories are equal data. -/
def Memory.wf (m : Memory) : Bool := Memory.wfFrom 0 m

/-- Why the core halted: the 2-bit field `halt_cause` (10_state.md R18, 60_exceptions.md R130). -/
inductive HaltCause where
  | exit | illegalOpcode | fetchOutOfRange | fetchMisaligned
  deriving DecidableEq, Repr

/-- The number of a cause (R18; decision D8, notes/assumptions/7.md). -/
def HaltCause.code : HaltCause → BitVec 2
  | .exit => 0
  | .illegalOpcode => 1
  | .fetchOutOfRange => 2
  | .fetchMisaligned => 3

/-- A step that ends with no next state. The faults of the SPEC (60_exceptions.md R130) are not here: they halt the core, and
the halted core is a next state (R135). -/
inductive Fault where
  /-- Raised by a memory operation asked for an address above 65535, which "names nothing" (20_memory.md R30). Safe: the
  fetch checks its range first (R34), so no step raises it. -/
  | addressNamesNoByte (addr : Nat)
  deriving DecidableEq, Repr

/-- What the model gives no meaning. -/
inductive Refusal where
  /-- Raised by an arm of `exec` whose instruction has no meaning yet. Safe. No arm does. -/
  | notModelled (mnemonic : String)
  /-- Raised for the LI_SLOT word when the parameter LI_SLOT is `refuse` (43_system.md R124). Safe. The machine's own
  parameters never raise it. -/
  | liSlotRefused
  /-- Raised by the host session for a load or a preset after the first step (10_state.md R22, decision D11). Safe. No step
  raises it. -/
  | hostWriteAfterStart
  /-- Raised by the host session for a read of registers, pc or halt record while running = 1 (40_control_loop.md R81). Safe.
  No step raises it. -/
  | hostReadWhileRunning
  deriving DecidableEq, Repr

/-- The whole state of the core (10_state.md R10 to R19). -/
structure State where
  /-- `x[1]` to `x[31]`; register 0 holds nothing (R10, R11, 40_control_loop.md R80). -/
  regs : Vector Word 31
  /-- The program counter (R13). -/
  pc : Word
  /-- The 64 KiB memory (R16). -/
  mem : Memory
  /-- Running or Halted (R17). -/
  running : Bool
  /-- `halt_cause` (R18). -/
  haltCause : HaltCause
  /-- `halt_addr` (R18). -/
  haltAddr : Word
  /-- `halt_opcode` (R18). -/
  haltOpcode : OpNum
  deriving DecidableEq, Repr

/-- The machine after reset (10_state.md R20, 70_reset_and_hazards.md R150). The halt record has no defined value until a
halt: its three values are DESIGN CHOICE, unsafe (notes/assumptions/8.md). -/
def State.reset : State where
  regs := Vector.replicate 31 0
  pc := Config.resetPc
  mem := []
  running := true
  haltCause := .exit
  haltAddr := 0
  haltOpcode := 0

end Sys2Proof.Machine
end

