-- ==== Sys2Proof/Machine/Ops.lean ====
section
/-! DEFINITION. The named operations over memory, registers, program counter and halt record that every meaning and the step are
written with (00_scope.md R7). -/

namespace Sys2Proof.Machine

/-- The byte a memory holds at an address of 0 to 65535. -/
def Memory.lookup : Memory → Nat → Byte
  | [], _ => Memory.unlisted
  | (a, b) :: rest, k => if a = k then b else lookup rest k

/-- Put a byte in front unless it is what an unlisted address reads as. -/
def Memory.consByte (k : Nat) (v : Byte) (m : Memory) : Memory :=
  if v = Memory.unlisted then m else (k, v) :: m

/-- The memory with one byte changed, in canonical form. -/
def Memory.insert : Memory → Nat → Byte → Memory
  | [], k, v => Memory.consByte k v []
  | (a, b) :: rest, k, v =>
    if k < a then Memory.consByte k v ((a, b) :: rest)
    else if k = a then Memory.consByte k v rest
    else (a, b) :: insert rest k v

/-- Read one byte: an address above 65535 names nothing (20_memory.md R30). -/
def Memory.readByte (m : Memory) (addr : Nat) : Except Fault Byte :=
  if addr < Config.memSize then .ok (m.lookup addr) else .error (.addressNamesNoByte addr)

/-- `MemRead(addr, 4)` (00_scope.md R7, 20_memory.md R31, R32): the core's one access, the fetch. -/
def memReadWord (order : ByteOrder) (m : Memory) (addr : Nat) : Except Fault InstrWord :=
  match m.readByte addr, m.readByte (addr + 1), m.readByte (addr + 2), m.readByte (addr + 3) with
  | .ok b0, .ok b1, .ok b2, .ok b3 => .ok (wordOfBytes order b0 b1 b2 b3)
  | .error f, _, _, _ => .error f
  | _, .error f, _, _ => .error f
  | _, _, .error f, _ => .error f
  | _, _, _, .error f => .error f

/-- Bytes put at rising addresses from `addr`, those that fall inside the memory; the rest is dropped (20_memory.md R36). It is `MemWrite`
(00_scope.md R7), which no instruction performs (R35). -/
def memWriteBytes (m : Memory) (addr : Nat) : List Byte → Memory
  | [] => m
  | b :: bs =>
    if addr < Config.memSize then memWriteBytes (m.insert addr b) (addr + 1) bs else m

/-- Read a general register; index 0 reads 0 (10_state.md R11, 40_control_loop.md R85). -/
def State.readReg (s : State) (i : RegIdx) : Word :=
  if i = 0 then 0 else s.regs[i.toNat - 1]'(by have := i.isLt; omega)

/-- Write a general register; a write to index 0 is discarded (10_state.md R11, 40_control_loop.md R85). -/
def State.writeReg (s : State) (i : RegIdx) (v : Word) : State :=
  if i = 0 then s else { s with regs := s.regs.set (i.toNat - 1) v (by have := i.isLt; omega) }

/-- Set the program counter; nothing checks the value (10_state.md R15, 40_control_loop.md R86). -/
def State.setPc (s : State) (v : Word) : State := { s with pc := v }

/-- The sequencer's advance after a fetch that passed its checks (40_control_loop.md R86). -/
def State.advancePc (s : State) : State := s.setPc (s.pc + 4)

/-- The address of the instruction in execution: the pc has been advanced past it, so it is `pc - 4` (43_system.md R120,
60_exceptions.md R131). -/
def State.currentAddr (s : State) : Word := s.pc - 4

/-- The halt mechanism that EXIT and every fault share: `running <- 0` and the halt record (43_system.md R120,
60_exceptions.md R135). -/
def State.halt (s : State) (cause : HaltCause) (addr : Word) (op : OpNum) : State :=
  { s with running := false, haltCause := cause, haltAddr := addr, haltOpcode := op }

/-- TAKING AN EXCEPTION in the execute phase: ILLEGAL_OPCODE, the pc left advanced (60_exceptions.md R131, R135). There is no
return from it (R137). -/
def State.raiseIllegalOpcode (s : State) (op : OpNum) : State :=
  s.halt .illegalOpcode s.currentAddr op

/-- TAKING AN EXCEPTION in the fetch: the pc keeps the address and no word was read, so the opcode is 0 (60_exceptions.md R132, R133,
R135). There is no return from it (R137). -/
def State.raiseFetchFault (s : State) (cause : HaltCause) : State :=
  s.halt cause s.pc 0

end Sys2Proof.Machine
end

