-- ==== Sys2Proof/Machine/Operands.lean ====
section
/-! DEFINITION. The operand forms and the arithmetic: two register operands, a signed immediate, a pc-relative target
(41_arithmetic.md, 42_control_transfer.md R112, 40_control_loop.md R87). -/

namespace Sys2Proof.Machine

/-- An immediate or offset as a 64-bit operand: for a number of the field's range, `sext_64` of the field (R54, R101). -/
def immOperand (n : Int) : Word := BitVec.ofInt 64 n

/-- The arithmetic-logic unit's add: modulo 2^64, no flag, no trap (40_control_loop.md R87, R104; decision D6, notes/assumptions/6.md). -/
def aluAdd (a b : Word) : Word := a + b

/-- The arithmetic-logic unit's subtract: modulo 2^64 (40_control_loop.md R87, R104; decision D6). -/
def aluSub (a b : Word) : Word := a - b

/-- The target law, on the pc that is already the next instruction's address (42_control_transfer.md R112; modulus is decision
D15, notes/assumptions/12.md). Nothing checks the result. -/
def branchTarget (pc : Word) (off : Int) : Word := pc + immOperand off

end Sys2Proof.Machine
end

