-- ==== Sys2Proof/Machine/Arithmetic.lean ====
section
/-! DEFINITION. ADD, ADDI, SUB (41_arithmetic.md). The pc has been advanced already (40_control_loop.md R86) and none of them
touches it. Both sources are read before the destination is written (R85). -/

namespace Sys2Proof.Machine

/-- ADD (R100). -/
def execAdd (rd rs1 rs2 : RegIdx) (s : State) : Host.Outcome State Fault Refusal :=
  .next (s.writeReg rd (aluAdd (s.readReg rs1) (s.readReg rs2)))

/-- ADDI (R101). -/
def execAddi (rd rs1 : RegIdx) (imm : Int) (s : State) : Host.Outcome State Fault Refusal :=
  .next (s.writeReg rd (aluAdd (s.readReg rs1) (immOperand imm)))

/-- SUB (R102): the minuend is rs1, the subtrahend rs2. -/
def execSub (rd rs1 rs2 : RegIdx) (s : State) : Host.Outcome State Fault Refusal :=
  .next (s.writeReg rd (aluSub (s.readReg rs1) (s.readReg rs2)))

end Sys2Proof.Machine
end

