-- ==== Sys2Proof/Machine/System.lean ====
section
/-! DEFINITION. EXIT and the reserved LI_SLOT word (43_system.md). -/

namespace Sys2Proof.Machine

/-- EXIT (R120): the normal stop, its record the address of the EXIT and opcode 0. -/
def execExit (s : State) : Host.Outcome State Fault Refusal :=
  .next (s.halt .exit s.currentAddr 0)

/-- The LI_SLOT word under a choice of parameters: ILLEGAL_OPCODE with its own opcode, or no meaning (R59, R124; decision D5,
notes/assumptions/5.md). -/
def liSlotEffect (p : Params) (s : State) : Host.Outcome State Fault Refusal :=
  match p.liSlot with
  | .fault => .next (s.raiseIllegalOpcode (p.opMap.number .li))
  | .refuse => .refused .liSlotRefused

/-- LI_SLOT (R124) on the machine's own parameters: it takes ILLEGAL_OPCODE. -/
def execLiSlot (s : State) : Host.Outcome State Fault Refusal :=
  liSlotEffect Config.params s

end Sys2Proof.Machine
end

