-- ==== Sys2Proof/Machine/Flags.lean ====
section
/-! DEFINITION. The machine has no flags and no condition codes (10_state.md R19). Its only condition is the equality output of the
arithmetic-logic unit, which BEQ uses at once and nothing stores. -/

namespace Sys2Proof.Machine

/-- The equality output: the same 64-bit pattern (40_control_loop.md R87, 42_control_transfer.md R110). -/
def aluEqual (a b : Word) : Bool := decide (a = b)

end Sys2Proof.Machine
end

