-- ==== Sys2Proof/Machine/Transfer.lean ====
section
/-! DEFINITION. BEQ and JMP (42_control_transfer.md). The pc is already the next instruction's address, the base of the
displacement (R112). -/

namespace Sys2Proof.Machine

/-- BEQ (R110). -/
def execBeq (rs1 rs2 : RegIdx) (off : Int) (s : State) : Host.Outcome State Fault Refusal :=
  .next (if aluEqual (s.readReg rs1) (s.readReg rs2) then s.setPc (branchTarget s.pc off) else s)

/-- JMP (R111). -/
def execJmp (off : Int) (s : State) : Host.Outcome State Fault Refusal :=
  .next (s.setPc (branchTarget s.pc off))

end Sys2Proof.Machine
end

