-- ==== Sys2Proof/Machine/Dispatch.lean ====
section
/-! DEFINITION. The dispatch (40_control_loop.md R88): one arm per instruction. The state is the one after the fetch, its pc already
advanced (R86). -/

namespace Sys2Proof.Machine

def exec (i : Instr) (s : State) : Host.Outcome State Fault Refusal :=
  match i with
  | .exit => Sys2Proof.Machine.execExit s
  | .add rd rs1 rs2 => Sys2Proof.Machine.execAdd rd rs1 rs2 s
  | .addi rd rs1 imm => Sys2Proof.Machine.execAddi rd rs1 imm s
  | .liSlot => Sys2Proof.Machine.execLiSlot s
  | .beq rs1 rs2 off => Sys2Proof.Machine.execBeq rs1 rs2 off s
  | .jmp off => Sys2Proof.Machine.execJmp off s
  | .sub rd rs1 rs2 => Sys2Proof.Machine.execSub rd rs1 rs2 s

end Sys2Proof.Machine
end

