-- ==== Sys2Proof/Machine/ControlLoop.lean ====
section
/-! DEFINITION. The fetch and the fetch-decode-execute step (40_control_loop.md R83), under any choice of the parameters of
00_scope.md R5. -/

namespace Sys2Proof.Machine

/-- How a fetch ends. -/
inductive FetchResult where
  | word (w : InstrWord)
  | trap (cause : HaltCause)
  | fault (f : Fault)
  deriving DecidableEq, Repr

/-- The alignment check of a fetch (20_memory.md R33): with `bytewise` there is none. -/
def fetchMisaligned (p : Params) (pc : Word) : Bool :=
  match p.misalignedFetch with
  | .fault => decide (pc.toNat % 4 ≠ 0)
  | .bytewise => false

/-- The bounds check of a fetch, on the pc as an unsigned number (20_memory.md R34). -/
def fetchOutOfRange (p : Params) (pc : Word) : Bool :=
  match p.oobFetch with
  | .fault => decide (Config.lastFetch < pc.toNat)

/-- The fetch: alignment, then range, then the word (R83; the order is 60_exceptions.md R134). -/
def fetchWith (p : Params) (s : State) : FetchResult :=
  if fetchMisaligned p s.pc then .trap .fetchMisaligned
  else if fetchOutOfRange p s.pc then .trap .fetchOutOfRange
  else
    match memReadWord p.byteOrder s.mem s.pc.toNat with
    | .ok w => .word w
    | .error f => .fault f

/-- The dispatch under a choice of parameters. They matter to the LI_SLOT word alone (R59). -/
def execWith (p : Params) (i : Instr) (s : State) : Host.Outcome State Fault Refusal :=
  match i with
  | .exit => exec .exit s
  | .add rd rs1 rs2 => exec (.add rd rs1 rs2) s
  | .addi rd rs1 imm => exec (.addi rd rs1 imm) s
  | .liSlot => liSlotEffect p s
  | .beq rs1 rs2 off => exec (.beq rs1 rs2 off) s
  | .jmp off => exec (.jmp off) s
  | .sub rd rs1 rs2 => exec (.sub rd rs1 rs2) s

/-- Decode and execute a fetched word on the state whose pc has been advanced (R83). -/
def executeWord (p : Params) (w : InstrWord) (s : State) : Host.Outcome State Fault Refusal :=
  match decodeWith p.opMap w with
  | .ok i => execWith p i s
  | .error _ => .next (s.raiseIllegalOpcode (decodeFields w).op)

/-- One step (R83). A step request in Halted changes nothing (R90; decision D10, notes/assumptions/10.md). -/
def cycleWith (p : Params) (s : State) : Host.Outcome State Fault Refusal :=
  if s.running then
    match fetchWith p s with
    | .word w => executeWord p w s.advancePc
    | .trap cause => .next (s.raiseFetchFault cause)
    | .fault f => .fault f
  else .next s

/-- An address a fetch with the default parameters can serve (R33, R34). -/
def fetchable (pc : Word) : Bool :=
  !fetchMisaligned Config.params pc && !fetchOutOfRange Config.params pc

/-- The state whose next step runs the word `w`: the word stands at the pc in the machine's byte order, the pc is one a fetch
serves, and the core runs (notes/assumptions/20.md). -/
def State.placeFetchWord (s : State) (w : InstrWord) : State :=
  let pc := if fetchable s.pc then s.pc else Config.resetPc
  { s with
    pc := pc
    running := true
    mem := memWriteBytes s.mem pc.toNat (bytesOfWord Config.params.byteOrder w) }

end Sys2Proof.Machine
end

