-- ==== Sys2Proof/Machine/Step.lean ====
section
/-! DEFINITION. The step of the machine with the default parameters, and the placing of a word where it fetches. -/

namespace Sys2Proof.Machine

/-- One step of the machine (40_control_loop.md R83). -/
def step : State → Host.Outcome State Fault Refusal := cycleWith Config.params

/-- `s` with the instruction whose low `nbits` bits are `w`, the bits above 0, where the next step fetches
(notes/assumptions/20.md). -/
def State.withFetchWord (s : State) (nbits w : Nat) : State :=
  s.placeFetchWord (BitVec.ofNat 32 (w % 2 ^ nbits))

end Sys2Proof.Machine
end

