-- ==== Sys2Proof/Machine/Assembler.lean ====
section
/-! DEFINITION. The assembler as a function from lines of text to words (30_encoding.md R64 to R73). Files and the reporting of
their errors are host software and left out (00_scope.md R4). -/

namespace Sys2Proof.Machine

/-- "Token separators: comma and/or space" (R64). -/
def isSeparator (c : Char) : Bool := c == ',' || c == ' '

/-- A decimal digit (R65). -/
def isDecimalDigit (c : Char) : Bool := decide (48 ≤ c.toNat) && decide (c.toNat ≤ 57)

/-- Normalising a mnemonic to upper case (R64). -/
def upperChar (c : Char) : Char :=
  if 97 ≤ c.toNat ∧ c.toNat ≤ 122 then Char.ofNat (c.toNat - 32) else c

/-- A token ends: it joins the tokens unless it is empty, so that runs of separators collapse (R64). -/
def closeToken (cur : List Char) (rest : List (List Char)) : List (List Char) :=
  if cur.isEmpty then rest else cur.reverse :: rest

/-- The tokens of a line; `cur` is the token being read, reversed (R64). -/
def tokensFrom (cur : List Char) : List Char → List (List Char)
  | [] => closeToken cur []
  | c :: cs => if isSeparator c then closeToken cur (tokensFrom [] cs) else tokensFrom (c :: cur) cs

/-- The tokens of a line (R64). -/
def tokens (line : List Char) : List (List Char) := tokensFrom [] line

/-- The value of a run of decimal digits at the head of a text, `acc` being the value read so far. -/
def runValue (acc : Nat) : List Char → Nat
  | [] => acc
  | c :: cs => if isDecimalDigit c then runValue (acc * 10 + (c.toNat - 48)) cs else acc

/-- What stands before the first digit of a token, and the value of the run there, if there is one (R65). -/
def firstRun : List Char → Option (List Char × Nat)
  | [] => none
  | c :: cs =>
    if isDecimalDigit c then some ([], runValue 0 (c :: cs))
    else
      match firstRun cs with
      | some (before, n) => some (c :: before, n)
      | none => none

/-- A register operand: non-digits skipped, the following integer read (R65). -/
def parseReg (tok : List Char) : Option Nat :=
  match firstRun tok with
  | some (_, n) => some n
  | none => none

/-- An immediate or offset operand: the same, with a leading minus sign permitted (R65). Whether a minus sign elsewhere before the
digits negates is a free value (notes/assumptions/15.md). -/
def parseImm (tok : List Char) : Option Int :=
  match firstRun tok with
  | some (before, n) =>
    if before = ['-'] then some (-(n : Int))
    else if '-' ∈ before ∧ Config.strayMinusNegates tok = true then some (-(n : Int))
    else some (n : Int)
  | none => none

/-- How a line parses. -/
inductive ParsedLine where
  | stmt (s : AsmStmt)
  /-- An unknown mnemonic, a missing operand, an operand with no number, an empty line (R72). -/
  | malformed
  /-- More operands than the mnemonic takes, the first ones making the statement `s`: the spec does not say whether the list is
  malformed (notes/assumptions/14.md). -/
  | surplus (s : AsmStmt)
  deriving DecidableEq, Repr

/-- A line whose due operands make a statement, or do not, and whose further operands are `rest`. -/
def parsedWith (rest : List (List Char)) : Option AsmStmt → ParsedLine
  | some s => if rest.isEmpty then .stmt s else .surplus s
  | none => .malformed

/-- EXIT takes no operands, and its word is the zero word whether further ones are ignored (R66) or make the list malformed (R72). -/
def parseExit (_ : List (List Char)) : ParsedLine := .stmt .exit

/-- LI Rd, Imm (R67). -/
def parseLi : List (List Char) → ParsedLine
  | a :: b :: rest => parsedWith rest ((parseReg a).bind fun rd => (parseImm b).map fun imm => .li rd imm)
  | _ => .malformed

/-- SUB Rd, Rs1, Rs2 (R68). -/
def parseSub : List (List Char) → ParsedLine
  | a :: b :: c :: rest =>
    parsedWith rest
      ((parseReg a).bind fun rd => (parseReg b).bind fun rs1 => (parseReg c).map fun rs2 => .sub rd rs1 rs2)
  | _ => .malformed

/-- BEQ Rs1, Rs2, Offset (R69). -/
def parseBeq : List (List Char) → ParsedLine
  | a :: b :: c :: rest =>
    parsedWith rest
      ((parseReg a).bind fun rs1 => (parseReg b).bind fun rs2 => (parseImm c).map fun off => .beq rs1 rs2 off)
  | _ => .malformed

/-- JMP Offset (R70). -/
def parseJmp : List (List Char) → ParsedLine
  | a :: rest => parsedWith rest ((parseImm a).map fun off => .jmp off)
  | _ => .malformed

/-- The tokens of a line with its mnemonic, the first of them, normalised (R64). -/
def normalTokens (line : List Char) : List (List Char) :=
  match tokens line with
  | [] => []
  | t :: ops => t.map upperChar :: ops

/-- A mnemonic and its operands. ADD and ADDI are no mnemonics of the assembler (R71). -/
def parseTokens : List (List Char) → ParsedLine
  | [] => .malformed
  | name :: ops =>
    if name = ['E', 'X', 'I', 'T'] then parseExit ops
    else if name = ['L', 'I'] then parseLi ops
    else if name = ['S', 'U', 'B'] then parseSub ops
    else if name = ['B', 'E', 'Q'] then parseBeq ops
    else if name = ['J', 'M', 'P'] then parseJmp ops
    else .malformed

/-- The word of a statement (R66 to R71): the numbers go to the encoders as written and their masks reduce them. LI is ADDI
with source register 0 (R67). -/
def encodeStmt (m : OpMap) : AsmStmt → InstrWord
  | .exit => encodeR (m.number .exit) 0 0 0
  | .li rd imm => encodeI (m.number .addi) rd 0 imm
  | .sub rd rs1 rs2 => encodeR (m.number .sub) rd rs1 rs2
  | .beq rs1 rs2 off => encodeB (m.number .beq) rs1 rs2 off
  | .jmp off => encodeB (m.number .jmp) 0 0 off
  | .add rd rs1 rs2 => encodeR (m.number .add) rd rs1 rs2
  | .addi rd rs1 imm => encodeI (m.number .addi) rd rs1 imm

/-- The word of normalised tokens: the zero word, silently, where the assembler cannot handle them (R72). -/
def assembleTokens (m : OpMap) (toks : List (List Char)) : InstrWord :=
  match parseTokens toks with
  | .stmt s => encodeStmt m s
  | .malformed => 0
  | .surplus s => if Config.surplusOperandsIgnored toks then encodeStmt m s else 0

/-- `assemble_line` (R64). -/
def assembleLine (m : OpMap) (line : List Char) : InstrWord := assembleTokens m (normalTokens line)

/-- `assemble_program` (R73): one word a line, in order. -/
def assembleProgram (m : OpMap) (lines : List (List Char)) : List InstrWord :=
  lines.map (assembleLine m)

/-- A program image: the words as raw bytes in sequence, no framing (R73, 20_memory.md R36). -/
def imageOfWords (order : ByteOrder) (ws : List InstrWord) : List Byte :=
  ws.flatMap (bytesOfWord order)

end Sys2Proof.Machine
end

