-- ==== Sys2Proof/Machine/Datapath.lean ====
section
/-! DEFINITION. The core as its five sub-blocks (40_control_loop.md R80, R84 to R88): the control signals of each opcode, the register
file's ports, the arithmetic-logic unit, the sequencer. The organisation is decision D7 (notes/assumptions/21.md); no program sees it. The
machine's step is `cycleWith`; this is a second design of the same step. -/

namespace Sys2Proof.Machine

/-- A register field of the decoder's output. -/
inductive FieldSel where
  | fa | fb | fc
  deriving DecidableEq, Repr

/-- Where the arithmetic-logic unit's input B comes from. -/
inductive AluInput where
  | portB | simm
  deriving DecidableEq, Repr

/-- The unit's operations (R87). -/
inductive AluOp where
  | add | subtract | equal
  deriving DecidableEq, Repr

/-- The sequencer's choice of the next pc, over the advanced one (R86). -/
inductive NextPc where
  | sequential | ifEqual | always
  deriving DecidableEq, Repr

/-- One row of the control table (R88); `none` is the table's dash. -/
structure Control where
  readA : Option FieldSel := none
  readB : Option FieldSel := none
  aluB : AluInput := .portB
  aluOp : Option AluOp := none
  writeReg : Option FieldSel := none
  nextPc : NextPc := .sequential
  halt : Option HaltCause := none
  deriving DecidableEq, Repr

/-- The control table (R88). The LI number is among "any other value". -/
def controlOf : Option Opcode → Control
  | some .exit => { halt := some .exit }
  | some .add => { readA := some .fb, readB := some .fc, aluOp := some .add, writeReg := some .fa }
  | some .addi => { readA := some .fb, aluB := .simm, aluOp := some .add, writeReg := some .fa }
  | some .sub => { readA := some .fb, readB := some .fc, aluOp := some .subtract, writeReg := some .fa }
  | some .beq => { readA := some .fa, readB := some .fb, aluOp := some .equal, nextPc := .ifEqual }
  | some .jmp => { nextPc := .always }
  | some .li => { halt := some .illegalOpcode }
  | none => { halt := some .illegalOpcode }

/-- The index a selection takes from the decoder's output. -/
def Fields.selected (f : Fields) : FieldSel → RegIdx
  | .fa => f.fa
  | .fb => f.fb
  | .fc => f.fc

/-- A read port of the register file; an idle port's output is not used. -/
def State.readPort (s : State) (f : Fields) : Option FieldSel → Word
  | some sel => s.readReg (Fields.selected f sel)
  | none => 0

/-- The arithmetic-logic unit's 64-bit result (R87); `equal` has none. -/
def aluResult : Option AluOp → Word → Word → Word
  | some .add, a, b => aluAdd a b
  | some .subtract, a, b => aluSub a b
  | some .equal, _, _ => 0
  | none, _, _ => 0

/-- The state after the blocks have acted on one set of control signals, `a` being the address of the instruction and `s` the state
with the pc advanced. -/
def datapathExecute (c : Control) (f : Fields) (a : Word) (s : State) : State :=
  let portA := s.readPort f c.readA
  let portB := s.readPort f c.readB
  let inB := match c.aluB with
    | .portB => portB
    | .simm => f.simm
  let s1 := match c.writeReg with
    | some sel => s.writeReg (Fields.selected f sel) (aluResult c.aluOp portA inB)
    | none => s
  let s2 := match c.nextPc with
    | .sequential => s1
    | .ifEqual => if aluEqual portA inB then s1.setPc (s1.pc + f.simm) else s1
    | .always => s1.setPc (s1.pc + f.simm)
  match c.halt with
  | some cause => s2.halt cause a (match cause with
    | .exit => 0
    | _ => f.op)
  | none => s2

/-- One step of the five sub-blocks (R80), for the choice LI_SLOT = fault. -/
def datapathCycle (p : Params) (s : State) : Host.Outcome State Fault Refusal :=
  if s.running then
    match fetchWith p s with
    | .word w =>
      .next (datapathExecute (controlOf (opcodeNamed? p.opMap (decodeFields w).op)) (decodeFields w) s.pc s.advancePc)
    | .trap cause => .next (s.raiseFetchFault cause)
    | .fault f => .fault f
  else .next s

end Sys2Proof.Machine
end

