-- ==== Sys2Proof/Machine/HostPort.lean ====
section
/-! DEFINITION. The host's side of the core: reset, load, preset, step, and what it may read, each when it is usable
(40_control_loop.md R81, 10_state.md R22, 70_reset_and_hazards.md R152). -/

namespace Sys2Proof.Machine

/-- `load(bytes)`: byte k of the image goes to address k; what does not fit is dropped (20_memory.md R36). -/
def State.loadImage (s : State) (image : List Byte) : State :=
  { s with mem := memWriteBytes s.mem Config.imageBase image }

/-- `preset(i, v)`: ignored for register 0 (10_state.md R22, decision D17). -/
def State.preset (s : State) (i : RegIdx) (v : Word) : State := s.writeReg i v

/-- The core with what decides which ports are usable: whether a step has been requested since reset. -/
structure HostSession where
  core : State
  started : Bool
  deriving DecidableEq, Repr

/-- A core just reset (70_reset_and_hazards.md R150). -/
def HostSession.fresh : HostSession where
  core := State.reset
  started := false

/-- The inputs of the core (40_control_loop.md R81). -/
inductive HostCommand where
  | reset
  | load (image : List Byte)
  | preset (i : RegIdx) (v : Word)
  | step
  deriving DecidableEq, Repr

/-- A step request: it counts as a start whatever it does (R92, decision D13). -/
def HostSession.requestStep (h : HostSession) : Host.Outcome HostSession Fault Refusal :=
  match Sys2Proof.Machine.step h.core with
  | .next s => .next { core := s, started := true }
  | .fault f => .fault f
  | .refused r => .refused r

/-- One command. A load or a preset after the first step is no move of the host (decision D11, 93 U15). -/
def HostSession.apply (h : HostSession) (c : HostCommand) : Host.Outcome HostSession Fault Refusal :=
  match c with
  | .reset => .next HostSession.fresh
  | .load image =>
    if h.started then .refused .hostWriteAfterStart else .next { h with core := h.core.loadImage image }
  | .preset i v =>
    if h.started then .refused .hostWriteAfterStart else .next { h with core := h.core.preset i v }
  | .step => h.requestStep

/-- The halt record as ports: cause number, address, opcode (10_state.md R18). -/
structure HaltRecord where
  cause : BitVec 2
  addr : Word
  opcode : OpNum
  deriving DecidableEq, Repr

/-- The output `running`, usable any time (R81). -/
def HostSession.running (h : HostSession) : Bool := h.core.running

/-- The outputs that are usable when `running = 0` only (R81). -/
def HostSession.readHalted {α : Type} (h : HostSession) (value : State → α) : Except Refusal α :=
  if h.core.running then .error .hostReadWhileRunning else .ok (value h.core)

/-- `x_read(i)` (R81). -/
def HostSession.readReg (h : HostSession) (i : RegIdx) : Except Refusal Word := h.readHalted fun s => s.readReg i

/-- `pc_read` (R81). -/
def HostSession.readPc (h : HostSession) : Except Refusal Word := h.readHalted State.pc

/-- `halt_cause`, `halt_addr`, `halt_opcode` (R18, R81). -/
def HostSession.readRecord (h : HostSession) : Except Refusal HaltRecord :=
  h.readHalted fun s => { cause := s.haltCause.code, addr := s.haltAddr, opcode := s.haltOpcode }

end Sys2Proof.Machine
end

