-- ==== Sys2Proof/Safety.lean ====
section
/-! DEFINITION. The terms the statements use: the end of a run, what a step leaves unchanged, which registers an instruction
names, and the invariants. -/

namespace Sys2Proof.Machine

/-- The run has ended (40_control_loop.md R92). -/
abbrev Halted (s : State) : Prop := s.running = false

/-- The run ended at an EXIT (R92). -/
abbrev EndedNormally (s : State) : Prop := Halted s ∧ s.haltCause = .exit

/-- The run ended by one of the three faults (R92, 60_exceptions.md R130). -/
abbrev EndedByFault (s : State) : Prop := Halted s ∧ s.haltCause ≠ .exit

/-- Every byte of memory reads as before. -/
abbrev SameMemory (s t : State) : Prop := ∀ a, t.mem.readByte a = s.mem.readByte a

/-- Every general register reads as before. -/
abbrev SameRegs (s t : State) : Prop := ∀ j, t.readReg j = s.readReg j

/-- The running flag and the halt record are as before. -/
abbrev SameHaltState (s t : State) : Prop :=
  t.running = s.running ∧ t.haltCause = s.haltCause ∧ t.haltAddr = s.haltAddr ∧ t.haltOpcode = s.haltOpcode

/-- The core has just halted with this record (10_state.md R18). -/
abbrev HaltedWith (t : State) (cause : HaltCause) (addr : Word) (op : OpNum) : Prop :=
  t.running = false ∧ t.haltCause = cause ∧ t.haltAddr = addr ∧ t.haltOpcode = op

/-- The word in memory at an address that a fetch serves, read as the machine reads it (20_memory.md R31). -/
def wordAt (m : Memory) (a : Nat) : InstrWord :=
  wordOfBytes Config.params.byteOrder (m.lookup a) (m.lookup (a + 1)) (m.lookup (a + 2)) (m.lookup (a + 3))

/-- A running core at an address the fetch serves (20_memory.md R33, R34). -/
abbrev ReadyToFetch (s : State) : Prop :=
  s.running = true ∧ s.pc.toNat % 4 = 0 ∧ s.pc.toNat ≤ 65532

/-- The registers an instruction reads (10_state.md R12). -/
def readsOf : Instr → List RegIdx
  | .exit => []
  | .add _ rs1 rs2 => [rs1, rs2]
  | .addi _ rs1 _ => [rs1]
  | .liSlot => []
  | .beq rs1 rs2 _ => [rs1, rs2]
  | .jmp _ => []
  | .sub _ rs1 rs2 => [rs1, rs2]

/-- The registers an instruction writes (10_state.md R12). -/
def writesOf : Instr → List RegIdx
  | .exit => []
  | .add rd _ _ => [rd]
  | .addi rd _ _ => [rd]
  | .liSlot => []
  | .beq _ _ _ => []
  | .jmp _ => []
  | .sub rd _ _ => [rd]

/-- The opcode numbers with an arm in the dispatch (40_control_loop.md R88): 0, 1, 2, 4, 5, 6 under the default map. -/
def isExecuted (op : OpNum) : Bool :=
  match opcodeNamed? Config.params.opMap op with
  | some .li => false
  | some _ => true
  | none => false

/-- The halt record of a halted core tells the truth about the pc and the memory (10_state.md R14, R18; 60_exceptions.md R130 to
R133). -/
abbrev HaltRecordTrue (s : State) : Prop :=
  s.running = false →
    (s.haltCause = .exit →
      s.haltOpcode = 0 ∧ s.pc = s.haltAddr + 4 ∧ s.haltAddr.toNat % 4 = 0 ∧ s.haltAddr.toNat ≤ 65532 ∧
        (decodeFields (wordAt s.mem s.haltAddr.toNat)).op = 0) ∧
    (s.haltCause = .illegalOpcode →
      isExecuted s.haltOpcode = false ∧ s.pc = s.haltAddr + 4 ∧ s.haltAddr.toNat % 4 = 0 ∧ s.haltAddr.toNat ≤ 65532 ∧
        (decodeFields (wordAt s.mem s.haltAddr.toNat)).op = s.haltOpcode) ∧
    (s.haltCause = .fetchOutOfRange →
      s.haltOpcode = 0 ∧ s.pc = s.haltAddr ∧ s.haltAddr.toNat % 4 = 0 ∧ 65532 < s.haltAddr.toNat) ∧
    (s.haltCause = .fetchMisaligned →
      s.haltOpcode = 0 ∧ s.pc = s.haltAddr ∧ s.haltAddr.toNat % 4 ≠ 0)

/-- The invariant of every state: the memory is canonical and the halt record is true. -/
abbrev MachineInv (s : State) : Prop := s.mem.wf = true ∧ HaltRecordTrue s

/-- Every branch and jump word at an instruction address has a displacement that is a multiple of 4 (10_state.md R15 (d)). -/
def DisplacementsAligned (m : Memory) : Prop :=
  ∀ k, k % 4 = 0 → k ≤ 65532 →
    (∀ off, decode (wordAt m k) = .ok (.jmp off) → off % 4 = 0) ∧
    (∀ rs1 rs2 off, decode (wordAt m k) = .ok (.beq rs1 rs2 off) → off % 4 = 0)

/-- A program with aligned displacements, at an aligned pc, that has not stopped for misalignment (10_state.md R15 (d)). -/
def AlignedRun (s : State) : Prop :=
  DisplacementsAligned s.mem ∧ s.pc.toNat % 4 = 0 ∧ (s.running = false → s.haltCause ≠ .fetchMisaligned)

/-- The same letter in either case, or the same character (30_encoding.md R64). -/
def CaseVariant (c d : Char) : Prop :=
  c = d ∨ (97 ≤ c.toNat ∧ c.toNat ≤ 122 ∧ d.toNat + 32 = c.toNat) ∨ (97 ≤ d.toNat ∧ d.toNat ≤ 122 ∧ c.toNat + 32 = d.toNat)

/-- A text with neither a comma nor a space (R64). -/
abbrev NoSeparator (t : List Char) : Prop := ∀ c ∈ t, c ≠ ',' ∧ c ≠ ' '

/-- A run of commas and spaces, at least one (R64). -/
abbrev SeparatorRun (t : List Char) : Prop := t ≠ [] ∧ ∀ c ∈ t, c = ',' ∨ c = ' '

/-- A text with no decimal digit, 0 to 9 (R65). -/
abbrev NoDigit (t : List Char) : Prop := ∀ c ∈ t, c.toNat < 48 ∨ 57 < c.toNat

end Sys2Proof.Machine
end

