-- ==== Sys2Proof/Certificates/Slice0/Obligations.lean ====
section
/-! DEFINITION. The statements for the provers. `s` is the state `exec` runs on: after the fetch, its pc already the next
instruction's address (40_control_loop.md R86). "D<n>" is a decision of spec/92_eei_decisions.md, "log <n>" is notes/assumptions/<n>.md. -/

open Sys2Proof Sys2Proof.Machine

/-! ### Encoding -/

/-- Decode and encode agree, for EVERY opcode map the spec allows (R56), every instruction and every operand value its encoding admits. -/
def Obligations.DecodeOfEncodeIsTheInstruction : Prop :=
  ∀ (m : OpMap) (i : Instr), m.wellFormed = true → i.wellFormed = true → decodeWith m (encodeWith m i) = .ok i

/-- The round-trip law of the pure packing functions (R61), first direction: masked inputs come back, whatever numbers are given. The
positions of the fields are the spec's derivation (91_not_in_source.md N1, log 19). -/
def Obligations.PackedFieldsComeBackMasked : Prop :=
  ∀ (op : OpNum) (a b c : Nat) (n : Int),
    ((decodeFields (encodeR op a b c)).op = op ∧ (decodeFields (encodeR op a b c)).fa.toNat = a &&& 0x1F ∧
      (decodeFields (encodeR op a b c)).fb.toNat = b &&& 0x1F ∧ (decodeFields (encodeR op a b c)).fc.toNat = c &&& 0x1F) ∧
    ((decodeFields (encodeI op a b n)).op = op ∧ (decodeFields (encodeI op a b n)).fa.toNat = a &&& 0x1F ∧
      (decodeFields (encodeI op a b n)).fb.toNat = b &&& 0x1F ∧
      (decodeFields (encodeI op a b n)).simm.toInt = (n + 32768) % 65536 - 32768) ∧
    ((decodeFields (encodeB op a b n)).op = op ∧ (decodeFields (encodeB op a b n)).fa.toNat = a &&& 0x1F ∧
      (decodeFields (encodeB op a b n)).fb.toNat = b &&& 0x1F ∧
      (decodeFields (encodeB op a b n)).simm.toInt = (n + 32768) % 65536 - 32768)

/-- The round-trip law, second direction (R61, an inference the spec draws from R58 and R60): re-encoding a decoded word gives the word with
its ignored bits zero, and what the decoder answers is well formed. -/
def Obligations.ReencodingClearsOnlyIgnoredBits : Prop :=
  ∀ (m : OpMap) (w : InstrWord) (i : Instr), decodeWith m w = .ok i →
    encodeWith m i = w &&& usedBits i.opcode ∧ i.wellFormed = true

/-- A word that differs only in ignored bits is the same instruction (R58, an inference of the spec from R50 and R88). -/
def Obligations.IgnoredBitsDoNotChangeTheInstruction : Prop :=
  ∀ (m : OpMap) (w v : InstrWord) (n : Opcode), opcodeNamed? m (w.extractLsb' 26 6) = some n →
    w &&& usedBits n = v &&& usedBits n → decodeWith m v = decodeWith m w

/-- A word is rejected exactly when its opcode field is no number of the map, and the rejection names it. The default numbers are decision D1
(log 1): there the decoder rejects 7 to 63, and 3 is the reserved LI_SLOT row (decision D5, log 5). -/
def Obligations.DecoderRejectsExactlyTheUnknownOpcodes : Prop :=
  (∀ (m : OpMap) (w : InstrWord),
    decodeWith m w = .error (.illegalOpcode (w.extractLsb' 26 6)) ↔ ∀ n, m.number n ≠ w.extractLsb' 26 6) ∧
  (∀ (m : OpMap) (w : InstrWord), (∃ i, decodeWith m w = .ok i) ↔ ∃ n, m.number n = w.extractLsb' 26 6) ∧
  (∀ w : InstrWord, decode w = .error (.illegalOpcode (w.extractLsb' 26 6)) ↔ 7 ≤ w.toNat / 2 ^ 26) ∧
  (∀ w : InstrWord, decode w = .ok .liSlot ↔ w.toNat / 2 ^ 26 = 3) ∧
  (∀ w : InstrWord, decode w = .ok .exit ↔ w.toNat < 2 ^ 26)

/-- The encoders are the spec's shift, mask and or formulas (R60). -/
def Obligations.EncodersAreTheShiftMaskOrFormulas : Prop :=
  ∀ (op : OpNum) (rd rs1 rs2 : Nat) (imm : Int),
    encodeR op rd rs1 rs2 = (op.setWidth 32 <<< 26) ||| (BitVec.ofNat 32 (rd &&& 0x1F) <<< 21) |||
      (BitVec.ofNat 32 (rs1 &&& 0x1F) <<< 16) ||| (BitVec.ofNat 32 (rs2 &&& 0x1F) <<< 11) ∧
    encodeI op rd rs1 imm = (op.setWidth 32 <<< 26) ||| (BitVec.ofNat 32 (rd &&& 0x1F) <<< 21) |||
      (BitVec.ofNat 32 (rs1 &&& 0x1F) <<< 16) ||| (BitVec.ofInt 32 imm &&& 0xFFFF) ∧
    encodeB op rs1 rs2 imm = (op.setWidth 32 <<< 26) ||| (BitVec.ofNat 32 (rs1 &&& 0x1F) <<< 21) |||
      (BitVec.ofNat 32 (rs2 &&& 0x1F) <<< 16) ||| (BitVec.ofInt 32 imm &&& 0xFFFF)

/-- The decoder's outputs for every word, as numbers (R63): the slices, and the low 16 bits sign-extended to 64. -/
def Obligations.DecoderSlicesEveryWord : Prop :=
  ∀ w : InstrWord,
    (decodeFields w).op.toNat = w.toNat / 2 ^ 26 % 64 ∧ (decodeFields w).fa.toNat = w.toNat / 2 ^ 21 % 32 ∧
    (decodeFields w).fb.toNat = w.toNat / 2 ^ 16 % 32 ∧ (decodeFields w).fc.toNat = w.toNat / 2 ^ 11 % 32 ∧
    (decodeFields w).simm.toNat =
      if w.toNat % 65536 < 32768 then w.toNat % 65536 else w.toNat % 65536 + 2 ^ 64 - 2 ^ 16

/-- Words written out from the encodings decode to what they stand for (95_test_vectors.md 2.1; opcode numbers are decision D1, log 1). -/
def Obligations.WordsOfTheTestVectorsDecode : Prop :=
  decode 0x00000000 = .ok .exit ∧ decode 0x03FFFFFF = .ok .exit ∧ decode 0x046117FF = .ok (.add 3 1 2) ∧
  decode 0x0821FFFF = .ok (.addi 1 1 (-1)) ∧ decode 0x0BFF8000 = .ok (.addi 31 31 (-32768)) ∧
  decode 0x18221800 = .ok (.sub 1 2 3) ∧ decode 0x10230004 = .ok (.beq 1 3 4) ∧
  decode 0x1400FFF4 = .ok (.jmp (-12)) ∧ decode 0x17FFFFFC = .ok (.jmp (-4)) ∧
  decode 0x0C20002A = .ok .liSlot ∧ decode 0x1C000000 = .error (.illegalOpcode 7)

/-- The word a fetch reads is little-endian (R31; decision D2, log 2): the byte at the lowest address holds bits 7 to 0. -/
def Obligations.FetchedWordIsLittleEndian : Prop :=
  ∀ s : State, ReadyToFetch s → ∃ w : InstrWord, fetchWith Config.params s = .word w ∧
    w.toNat = (s.mem.lookup s.pc.toNat).toNat + (s.mem.lookup (s.pc.toNat + 1)).toNat * 2 ^ 8 +
      (s.mem.lookup (s.pc.toNat + 2)).toNat * 2 ^ 16 + (s.mem.lookup (s.pc.toNat + 3)).toNat * 2 ^ 24

/-! ### What each instruction does, and its frame -/

/-- ADD (R100) completes in every state: the sum modulo 2^64 (the modulus is decision D6, log 6) in rd unless rd is register 0; nothing
else changes. -/
def Obligations.AddWritesTheSum : Prop :=
  ∀ (rd rs1 rs2 : RegIdx) (s : State), ∃ t, exec (.add rd rs1 rs2) s = .next t ∧
    (∀ j, (t.readReg j).toNat = if j = rd ∧ rd ≠ 0 then ((s.readReg rs1).toNat + (s.readReg rs2).toNat) % 2 ^ 64
      else (s.readReg j).toNat) ∧
    t.pc = s.pc ∧ SameMemory s t ∧ SameHaltState s t

/-- ADDI (R101) completes in every state: the sum with the signed immediate, modulo 2^64 (decision D6, log 6), in rd unless rd is register 0;
nothing else changes. -/
def Obligations.AddiWritesTheSumWithTheSignedImmediate : Prop :=
  ∀ (rd rs1 : RegIdx) (imm : Int) (s : State), ∃ t, exec (.addi rd rs1 imm) s = .next t ∧
    (∀ j, ((t.readReg j).toNat : Int) = if j = rd ∧ rd ≠ 0 then (((s.readReg rs1).toNat : Int) + imm) % 2 ^ 64
      else ((s.readReg j).toNat : Int)) ∧
    t.pc = s.pc ∧ SameMemory s t ∧ SameHaltState s t

/-- SUB (R102) completes in every state: x[rs1] - x[rs2] modulo 2^64 (decision D6, log 6) in rd unless rd is register 0; nothing else
changes. -/
def Obligations.SubWritesTheDifference : Prop :=
  ∀ (rd rs1 rs2 : RegIdx) (s : State), ∃ t, exec (.sub rd rs1 rs2) s = .next t ∧
    (∀ j, ((t.readReg j).toNat : Int) =
      if j = rd ∧ rd ≠ 0 then (((s.readReg rs1).toNat : Int) - ((s.readReg rs2).toNat : Int)) % 2 ^ 64
      else ((s.readReg j).toNat : Int)) ∧
    t.pc = s.pc ∧ SameMemory s t ∧ SameHaltState s t

/-- BEQ (R110) completes in every state: taken exactly when the two 64-bit patterns are the same; the target is modulo 2^64 (decision D15,
log 12) and unchecked; nothing but the pc changes. -/
def Obligations.BeqBranchesExactlyOnEquality : Prop :=
  ∀ (rs1 rs2 : RegIdx) (off : Int) (s : State), ∃ t, exec (.beq rs1 rs2 off) s = .next t ∧
    ((s.readReg rs1).toNat = (s.readReg rs2).toNat → (t.pc.toNat : Int) = ((s.pc.toNat : Int) + off) % 2 ^ 64) ∧
    ((s.readReg rs1).toNat ≠ (s.readReg rs2).toNat → t.pc = s.pc) ∧
    SameRegs s t ∧ SameMemory s t ∧ SameHaltState s t

/-- JMP (R111) completes in every state: the pc moves by the signed offset, modulo 2^64 (decision D15, log 12), unchecked; nothing else
changes. -/
def Obligations.JmpMovesThePcByTheOffset : Prop :=
  ∀ (off : Int) (s : State), ∃ t, exec (.jmp off) s = .next t ∧
    (t.pc.toNat : Int) = ((s.pc.toNat : Int) + off) % 2 ^ 64 ∧
    SameRegs s t ∧ SameMemory s t ∧ SameHaltState s t

/-- EXIT (R120) completes in every state: the core halts with cause EXIT, the address of the EXIT (the pc less 4) and opcode 0 (the form of
the record is decision D8, log 7); registers, pc and memory stay. -/
def Obligations.ExitHaltsWithItsAddress : Prop :=
  ∀ s : State, ∃ t, exec .exit s = .next t ∧ HaltedWith t .exit (s.pc - 4) 0 ∧
    t.pc = s.pc ∧ SameRegs s t ∧ SameMemory s t

/-- The LI_SLOT word (R124) completes in every state by taking ILLEGAL_OPCODE with opcode 3 (decisions D5 and D1, logs 5 and 1; the form of the
record is decision D8, log 7); registers, pc and memory stay. -/
def Obligations.LiSlotTakesIllegalOpcode : Prop :=
  ∀ s : State, ∃ t, exec .liSlot s = .next t ∧ HaltedWith t .illegalOpcode (s.pc - 4) 3 ∧
    t.pc = s.pc ∧ SameRegs s t ∧ SameMemory s t

/-- R105: none of ADD, ADDI, SUB can fault, none reads or writes anything but the registers it names and, through the step, the pc; each
leaves running as it was. Two runs that agree on the named sources give the same value, whatever else differs. -/
def Obligations.ArithmeticTouchesOnlyItsNamedRegisters : Prop :=
  ∀ (rd rs1 rs2 : RegIdx) (imm : Int) (s u : State), s.readReg rs1 = u.readReg rs1 →
    (∃ t v, exec (.addi rd rs1 imm) s = .next t ∧ exec (.addi rd rs1 imm) u = .next v ∧
      t.readReg rd = v.readReg rd ∧ (∀ j, j ≠ rd → t.readReg j = s.readReg j) ∧
      t.pc = s.pc ∧ SameMemory s t ∧ SameHaltState s t) ∧
    (s.readReg rs2 = u.readReg rs2 → ∀ i ∈ [Instr.add rd rs1 rs2, Instr.sub rd rs1 rs2],
      ∃ t v, exec i s = .next t ∧ exec i u = .next v ∧
        t.readReg rd = v.readReg rd ∧ (∀ j, j ≠ rd → t.readReg j = s.readReg j) ∧
        t.pc = s.pc ∧ SameMemory s t ∧ SameHaltState s t)

/-- The table of R12 as what an instruction may depend on: two states that differ only in registers the instruction does not read go to
states with the same pc, the same halt state and the same written register, and no register it does not write changes. -/
def Obligations.InstructionsUseOnlyTheRegistersOfTheTable : Prop :=
  ∀ (i : Instr) (s u : State), u = { s with regs := u.regs } → (∀ r ∈ readsOf i, s.readReg r = u.readReg r) →
    ∃ t v, exec i s = .next t ∧ exec i u = .next v ∧ (∀ r ∈ writesOf i, t.readReg r = v.readReg r) ∧
      (∀ r, r ∉ writesOf i → t.readReg r = s.readReg r ∧ v.readReg r = u.readReg r) ∧
      v = { t with regs := v.regs }

/-- The laws R104 names (arithmetic modulo 2^64 is decision D6, log 6): ADD commutes; SUB then ADD of the same register restores; ADDI of k then of
-k restores. -/
def Obligations.ArithmeticLawsOfWrapAround : Prop :=
  (∀ (rd a b : RegIdx) (s : State), exec (.add rd a b) s = exec (.add rd b a) s) ∧
  (∀ (rd a b : RegIdx) (s : State), rd ≠ b → rd ≠ 0 → ∃ t u, exec (.sub rd a b) s = .next t ∧
    exec (.add rd rd b) t = .next u ∧ u.readReg rd = s.readReg a) ∧
  (∀ (rd a : RegIdx) (k : Int) (s : State), rd ≠ 0 → ∃ t u, exec (.addi rd a k) s = .next t ∧
    exec (.addi rd rd (-k)) t = .next u ∧ u.readReg rd = s.readReg a)

/-- R104's other reading (decision D6, log 6, and 93_implementation_defined.md G2): read as two's complement numbers too, the result is the exact one reduced
to the range of 64 bits. -/
def Obligations.ArithmeticIsExactModuloInTwosComplement : Prop :=
  ∀ (rd a b : RegIdx) (s : State), rd ≠ 0 →
    (∃ t, exec (.add rd a b) s = .next t ∧
      (t.readReg rd).toInt = ((s.readReg a).toInt + (s.readReg b).toInt + 2 ^ 63) % 2 ^ 64 - 2 ^ 63) ∧
    (∃ t, exec (.sub rd a b) s = .next t ∧
      (t.readReg rd).toInt = ((s.readReg a).toInt - (s.readReg b).toInt + 2 ^ 63) % 2 ^ 64 - 2 ^ 63) ∧
    (∀ imm : Int, ∃ t, exec (.addi rd a imm) s = .next t ∧
      (t.readReg rd).toInt = ((s.readReg a).toInt + imm + 2 ^ 63) % 2 ^ 64 - 2 ^ 63)

/-! ### The step -/

/-- A step runs the decoded instruction (R83, R86): when the word at the pc decodes to `i`, the step is `exec i` on the state whose pc is
advanced by 4 and which is otherwise the same. -/
def Obligations.StepRunsTheDecodedInstruction : Prop :=
  ∀ (s : State) (i : Instr), ReadyToFetch s → decode (wordAt s.mem s.pc.toNat) = .ok i →
    step s = exec i { s with pc := s.pc + 4 }

/-- The same under EVERY choice of the parameters of R5: a fetch with MISALIGNED_FETCH = bytewise needs no alignment (R33), the byte order and the map
are the chosen ones (R31, R56), and LI_SLOT = refuse gives its word no meaning (R59). The defaults are decisions D1 to D5 (logs 1 to 5). -/
def Obligations.StepUnderAnyParametersRunsTheDecodedInstruction : Prop :=
  ∀ (p : Params) (s : State) (i : Instr), s.running = true → s.pc.toNat ≤ 65532 →
    (p.misalignedFetch = .bytewise ∨ s.pc.toNat % 4 = 0) →
    decodeWith p.opMap (wordOfBytes p.byteOrder (s.mem.lookup s.pc.toNat) (s.mem.lookup (s.pc.toNat + 1))
      (s.mem.lookup (s.pc.toNat + 2)) (s.mem.lookup (s.pc.toNat + 3))) = .ok i →
    (i ≠ .liSlot → cycleWith p s = exec i { s with pc := s.pc + 4 }) ∧
    (i = .liSlot → p.liSlot = .refuse → cycleWith p s = .refused .liSlotRefused) ∧
    (i = .liSlot → p.liSlot = .fault → ∃ t, cycleWith p s = .next t ∧
      HaltedWith t .illegalOpcode s.pc (p.opMap.number .li) ∧ t.pc = s.pc + 4 ∧ SameRegs s t ∧ SameMemory s t)

/-- ILLEGAL_OPCODE (R131): a word with opcode 3 or 7 to 63 halts the core in one step with its address and opcode, the pc advanced, registers and
memory as before. (Opcode numbers and 3: decisions D1 and D5, logs 1 and 5; the record: D8, log 7.) -/
def Obligations.UnknownOpcodeHaltsInOneStep : Prop :=
  ∀ s : State, ReadyToFetch s →
    (wordAt s.mem s.pc.toNat).toNat / 2 ^ 26 = 3 ∨ 7 ≤ (wordAt s.mem s.pc.toNat).toNat / 2 ^ 26 →
    ∃ t, step s = .next t ∧ HaltedWith t .illegalOpcode s.pc ((wordAt s.mem s.pc.toNat).extractLsb' 26 6) ∧
      t.pc = s.pc + 4 ∧ SameRegs s t ∧ SameMemory s t

/-- FETCH_OUT_OF_RANGE (R132; decisions D4, D8 and D9, logs 4, 7 and 9): an aligned pc above 65532 halts the core, nothing read, the pc kept. -/
def Obligations.OutOfRangeFetchHaltsTheCore : Prop :=
  ∀ s : State, s.running = true → s.pc.toNat % 4 = 0 → 65532 < s.pc.toNat →
    ∃ t, step s = .next t ∧ HaltedWith t .fetchOutOfRange s.pc 0 ∧ t.pc = s.pc ∧ SameRegs s t ∧ SameMemory s t

/-- FETCH_MISALIGNED (R133; decisions D3, D8 and D9, logs 3, 7 and 9), which comes before the range check (R134; decision D16, log 13): no hypothesis
on the range. -/
def Obligations.MisalignedFetchHaltsTheCoreFirst : Prop :=
  ∀ s : State, s.running = true → s.pc.toNat % 4 ≠ 0 →
    ∃ t, step s = .next t ∧ HaltedWith t .fetchMisaligned s.pc 0 ∧ t.pc = s.pc ∧ SameRegs s t ∧ SameMemory s t

/-- A step request in Halted changes nothing (R90; decision D10, log 10). -/
def Obligations.StepInHaltedChangesNothing : Prop :=
  ∀ s : State, s.running = false → step s = .next s

/-- No step of the machine ends without a next state: a fault of the spec is a halted state (R135; decisions D3 to D5, logs 3 to 5), and a read
of an address that names nothing never happens. -/
def Obligations.EveryStepHasANextState : Prop :=
  ∀ s : State, ∃ t, step s = .next t

/-- The next pc of every kind of step (the table of R14; the fetch faults' row is decision D9, log 9; the modulus is decision D15, log 12). -/
def Obligations.NextPcOfEveryStep : Prop :=
  ∀ s : State, s.running = true → ∃ t, step s = .next t ∧
    (¬ ReadyToFetch s → t.pc = s.pc) ∧
    (ReadyToFetch s →
      (∀ off, decode (wordAt s.mem s.pc.toNat) = .ok (.jmp off) →
        (t.pc.toNat : Int) = ((s.pc.toNat : Int) + 4 + off) % 2 ^ 64) ∧
      (∀ rs1 rs2 off, decode (wordAt s.mem s.pc.toNat) = .ok (.beq rs1 rs2 off) →
        (s.readReg rs1 = s.readReg rs2 → (t.pc.toNat : Int) = ((s.pc.toNat : Int) + 4 + off) % 2 ^ 64) ∧
        (s.readReg rs1 ≠ s.readReg rs2 → t.pc.toNat = s.pc.toNat + 4)) ∧
      ((∀ off, decode (wordAt s.mem s.pc.toNat) ≠ .ok (.jmp off)) →
        (∀ rs1 rs2 off, decode (wordAt s.mem s.pc.toNat) ≠ .ok (.beq rs1 rs2 off)) →
        t.pc.toNat = s.pc.toNat + 4))

/-- R35: no instruction reads or writes memory as data. A step leaves memory as it is, and what an instruction does is the same over any
memory. -/
def Obligations.MemoryIsNeitherReadNorWrittenAsData : Prop :=
  (∀ s t : State, step s = .next t → t.mem = s.mem ∧ SameMemory s t) ∧
  (∀ (i : Instr) (s : State) (m : Memory), ∃ t, exec i s = .next t ∧ exec i { s with mem := m } = .next { t with mem := m })

/-- R17: running is set at reset, cleared by EXIT and by every fault and by nothing else, set back by no step, and read by no instruction. -/
def Obligations.RunningFlagRule : Prop :=
  State.reset.running = true ∧
  (∀ s t : State, step s = .next t → t.running = true → s.running = true) ∧
  (∀ s t : State, s.running = true → step s = .next t →
    (t.running = false ↔ ∀ i, ReadyToFetch s → decode (wordAt s.mem s.pc.toNat) = .ok i → i = .exit ∨ i = .liSlot)) ∧
  (∀ (i : Instr) (s : State) (b : Bool), ∃ t v, exec i s = .next t ∧ exec i { s with running := b } = .next v ∧
    { v with running := t.running } = t)

/-- R20: the values after reset, of every piece of state to which R20 gives one; memory is then overwritten by the image that is loaded, byte by byte
from address 0 (R36; for a length that is no multiple of 4, decision D18, log 17); and the entry point: the first fetch reads the word at address 0. -/
def Obligations.ResetValues : Prop :=
  (∀ i, State.reset.readReg i = 0) ∧ State.reset.pc = 0 ∧ State.reset.running = true ∧
  (∀ a, a < 65536 → State.reset.mem.readByte a = .ok 0) ∧
  (∀ (image : List Byte) (a : Nat), a < 65536 → (State.reset.loadImage image).mem.readByte a = .ok ((image[a]?).getD 0)) ∧
  (∀ image : List Byte, fetchWith Config.params (State.reset.loadImage image) =
    .word (wordAt (State.reset.loadImage image).mem 0))

/-- Register 0 as a destination (R11): the step of ADD, ADDI or SUB with rd = 0 only advances the pc. -/
def Obligations.DestinationRegisterZeroOnlyAdvancesThePc : Prop :=
  ∀ (s : State) (rs1 rs2 : RegIdx) (imm : Int), ReadyToFetch s →
    decode (wordAt s.mem s.pc.toNat) = .ok (.add 0 rs1 rs2) ∨ decode (wordAt s.mem s.pc.toNat) = .ok (.addi 0 rs1 imm) ∨
      decode (wordAt s.mem s.pc.toNat) = .ok (.sub 0 rs1 rs2) →
    step s = .next { s with pc := s.pc + 4 }

/-- A word of zeroed memory executes as EXIT (R41, an inference of the spec; the record's form is decision D8, log 7). -/
def Obligations.ZeroedMemoryExecutesAsExit : Prop :=
  ∀ s : State, ReadyToFetch s → (∀ k, k < 4 → s.mem.lookup (s.pc.toNat + k) = 0) →
    ∃ t, step s = .next t ∧ HaltedWith t .exit s.pc 0 ∧ t.pc = s.pc + 4 ∧ SameRegs s t ∧ SameMemory s t

/-- While the core runs, the halt record has no defined value and nothing reads it (R18, 93_implementation_defined.md U12; its form is
decision D8, log 7, and its value after reset is the model's DESIGN CHOICE, log 8, on which this does not rest): two states that differ in it step to states
that agree on all else, and on the record too once they halt. -/
def Obligations.HaltRecordIsNotReadWhileRunning : Prop :=
  ∀ (s : State) (c : HaltCause) (a : Word) (o : OpNum), s.running = true →
    ∃ t v, step s = .next t ∧ step { s with haltCause := c, haltAddr := a, haltOpcode := o } = .next v ∧
      { v with haltCause := t.haltCause, haltAddr := t.haltAddr, haltOpcode := t.haltOpcode } = t ∧
      (t.running = false → v = t)

/-! ### Invariants -/

/-- Every step keeps the canonical memory and the truth of the halt record (R14, R18, R130 to R133; decisions D1, D3 to D5, D8, D9, D16; logs 1, 3, 4, 5, 7, 9,
13): in any state that meets the invariant, reached or not. -/
def Obligations.EveryStepKeepsTheHaltRecordTrue : Prop :=
  ∀ s t : State, MachineInv s → step s = .next t → MachineInv t

/-- The machine after reset meets that invariant. -/
def Obligations.ResetMeetsTheHaltRecordInvariant : Prop :=
  MachineInv State.reset

/-- R15 (d), an inference of the spec: with displacements that are all multiples of 4, the pc stays a multiple of 4 and no step takes
FETCH_MISALIGNED (decision D3, log 3). -/
def Obligations.AlignedDisplacementsKeepThePcAligned : Prop :=
  ∀ s t : State, AlignedRun s → step s = .next t → AlignedRun t

/-- The machine after reset meets that invariant: zeroed memory has no branch or jump word. -/
def Obligations.ResetMeetsTheAlignedRunInvariant : Prop :=
  AlignedRun State.reset

/-- Two canonical memories that read the same at every address are equal data (the model's own form of R16). -/
def Obligations.CanonicalMemoriesThatReadAlikeAreEqual : Prop :=
  ∀ m n : Memory, m.wf = true → n.wf = true → (∀ a, m.readByte a = n.readByte a) → m = n

/-- A run of any number of steps from ANY state answers a state, with the memory it began with (R35, R89), and keeps the invariant. -/
def Obligations.EveryRunReachesAStateAndKeepsTheInvariant : Prop :=
  ∀ (k : Nat) (s : State), ∃ t, Host.Core.run Sys2Proof.core k s = .next t ∧ t.mem = s.mem ∧
    (MachineInv s → MachineInv t)

/-- The halted state is final (R92): any number of further step requests leaves it (decision D10, log 10). -/
def Obligations.HaltedStateIsFinal : Prop :=
  ∀ (k : Nat) (s : State), s.running = false → Host.Core.run Sys2Proof.core k s = .next s

/-! ### The two designs -/

/-- The five sub-blocks with the control table compute the step (R80, R84 to R88; the organisation is decision D7, log 21), under every choice of
the other parameters, LI_SLOT being `fault` (decision D5, log 5). -/
def Obligations.SubBlocksComputeTheStep : Prop :=
  ∀ (p : Params) (s : State), p.liSlot = .fault → datapathCycle p s = cycleWith p s

/-! ### The host's ports -/

/-- Loading an image (R36; decision D18, log 17): byte k goes to address k, as far as the memory reaches; every other byte is as it was; registers,
pc and halt state stay. -/
def Obligations.LoadedImageBytesStandFromAddressZero : Prop :=
  ∀ (s : State) (image : List Byte), s.mem.wf = true →
    (∀ a, a < 65536 → (s.loadImage image).mem.readByte a = .ok ((image[a]?).getD (s.mem.lookup a))) ∧
    SameRegs s (s.loadImage image) ∧ (s.loadImage image).pc = s.pc ∧ SameHaltState s (s.loadImage image)

/-- Word i of an image is the word a fetch reads at address 4 i, in either byte order (R36, R31; decision D2, log 2). -/
def Obligations.LoadedWordsAreFetchedAtFourTimesTheirIndex : Prop :=
  ∀ (p : Params) (s : State) (ws : List InstrWord) (i : Nat) (w : InstrWord), s.mem.wf = true → ws[i]? = some w →
    4 * i ≤ 65532 → s.pc.toNat = 4 * i →
    fetchWith p (s.loadImage (imageOfWords p.byteOrder ws)) = .word w

/-- R137: Halted is terminal. No move of the host but reset makes the core run again or changes the halt record, so there is no return and no second
fault; reset begins anew at address 0 with zeroed registers. -/
def Obligations.OnlyResetLeavesHalted : Prop :=
  ∀ (h k : HostSession) (c : HostCommand), h.core.running = false → h.apply c = .next k →
    (c = .reset ∧ k.core.running = true ∧ k.core.pc = 0 ∧ ∀ i, k.core.readReg i = 0) ∨
    (c ≠ .reset ∧ k.core.running = false ∧ k.core.haltCause = h.core.haltCause ∧ k.core.haltAddr = h.core.haltAddr ∧
      k.core.haltOpcode = h.core.haltOpcode ∧ k.core.pc = h.core.pc)

/-- When each port is usable (R81, R22; decisions D7 and D11, log 11): loads and presets before the first step only, reset and step at any time,
the registers, the pc and the record read in Halted only. A preset of register 0 is discarded (decision D17, log 16). -/
def Obligations.HostPortsAreUsableWhenTheTableSaysSo : Prop :=
  ∀ (h : HostSession) (image : List Byte) (i : RegIdx) (v : Word),
    (h.started = true → h.apply (.load image) = .refused .hostWriteAfterStart ∧
      h.apply (.preset i v) = .refused .hostWriteAfterStart) ∧
    (h.started = false → h.apply (.load image) = .next { h with core := h.core.loadImage image } ∧
      ∃ k, h.apply (.preset i v) = .next k ∧ k.started = false ∧
        (∀ j, k.core.readReg j = if j = i ∧ i ≠ 0 then v else h.core.readReg j) ∧
        k.core.pc = h.core.pc ∧ SameMemory h.core k.core ∧ SameHaltState h.core k.core) ∧
    (∃ k, h.apply .step = .next k ∧ k.started = true ∧ step h.core = .next k.core) ∧
    h.apply .reset = .next HostSession.fresh ∧
    (h.core.running = true → h.readReg i = .error .hostReadWhileRunning ∧ h.readPc = .error .hostReadWhileRunning ∧
      h.readRecord = .error .hostReadWhileRunning) ∧
    (h.core.running = false → h.readReg i = .ok (h.core.readReg i) ∧ h.readPc = .ok h.core.pc ∧
      h.readRecord = .ok ⟨h.core.haltCause.code, h.core.haltAddr, h.core.haltOpcode⟩)

/-- A word placed where the machine fetches is what its next step fetches and runs; the pc is kept where a fetch serves it and is 0 otherwise; no
register and no other byte of memory changes (log 20: the model's own interface). -/
def Obligations.PlacedFetchWordIsWhatTheNextStepRuns : Prop :=
  ∀ (s t : State) (w : InstrWord), s.mem.wf = true → t = s.withFetchWord 32 w.toNat →
    ReadyToFetch t ∧ fetchWith Config.params t = .word w ∧
    (∀ i, decode w = .ok i → step t = exec i { t with pc := t.pc + 4 }) ∧
    (decode w = .error (.illegalOpcode (w.extractLsb' 26 6)) →
      ∃ u, step t = .next u ∧ HaltedWith u .illegalOpcode t.pc (w.extractLsb' 26 6)) ∧
    (t.pc = if s.pc.toNat % 4 = 0 ∧ s.pc.toNat ≤ 65532 then s.pc else 0) ∧
    t.mem.wf = true ∧ SameRegs s t ∧
    (∀ a, a < t.pc.toNat ∨ t.pc.toNat + 4 ≤ a → t.mem.readByte a = s.mem.readByte a)

/-! ### The assembler's syntax and results -/

/-- LI is ADDI from register 0 (R67): the same word, for every map; run, it loads the sign extension of the low 16 bits, and an immediate in range
loads as written. -/
def Obligations.LiIsAddiFromRegisterZero : Prop :=
  ∀ (m : OpMap) (rd : Nat) (imm : Int) (s : State), m.wellFormed = true →
    encodeStmt m (.li rd imm) = encodeI (m.number .addi) rd 0 imm ∧
    ∃ i t, decodeWith m (encodeStmt m (.li rd imm)) = .ok i ∧ (∃ n, i = .addi (BitVec.ofNat 5 rd) 0 n) ∧ exec i s = .next t ∧
      (∀ j, t.readReg j = if j = BitVec.ofNat 5 rd ∧ j ≠ 0 then sext64 (BitVec.ofInt 16 imm) else s.readReg j) ∧
      ((-32768 ≤ imm ∧ imm ≤ 32767) → (sext64 (BitVec.ofInt 16 imm)).toInt = imm) ∧
      t.pc = s.pc ∧ SameMemory s t ∧ SameHaltState s t

/-- The word of a statement with numbers in the grammar's ranges decodes to the instruction it names, for every map (R66 to R71; ADD and ADDI are the
notation of decision D12, log 22). -/
def Obligations.AssembledStatementsDecodeAsWritten : Prop :=
  ∀ (m : OpMap) (a b c : Nat) (n : Int), m.wellFormed = true → a < 32 → b < 32 → c < 32 → -32768 ≤ n → n ≤ 32767 →
    decodeWith m (encodeStmt m .exit) = .ok .exit ∧
    decodeWith m (encodeStmt m (.li a n)) = .ok (.addi (BitVec.ofNat 5 a) 0 n) ∧
    decodeWith m (encodeStmt m (.sub a b c)) = .ok (.sub (BitVec.ofNat 5 a) (BitVec.ofNat 5 b) (BitVec.ofNat 5 c)) ∧
    decodeWith m (encodeStmt m (.beq a b n)) = .ok (.beq (BitVec.ofNat 5 a) (BitVec.ofNat 5 b) n) ∧
    decodeWith m (encodeStmt m (.jmp n)) = .ok (.jmp n) ∧
    decodeWith m (encodeStmt m (.add a b c)) = .ok (.add (BitVec.ofNat 5 a) (BitVec.ofNat 5 b) (BitVec.ofNat 5 c)) ∧
    decodeWith m (encodeStmt m (.addi a b n)) = .ok (.addi (BitVec.ofNat 5 a) (BitVec.ofNat 5 b) n)

/-- A line the assembler cannot handle gives the zero word, silently (R72; that an empty line is one is the spec's inference): no mnemonic, an
unknown one (ADD and ADDI among them, R71), a missing operand. -/
def Obligations.UnhandledLineGivesTheZeroWord : Prop :=
  ∀ (m : OpMap) (line : List Char),
    (tokens line = [] → assembleLine m line = 0) ∧
    (∀ t ops, tokens line = t :: ops →
      (t.map upperChar ∉ [['E', 'X', 'I', 'T'], ['L', 'I'], ['S', 'U', 'B'], ['B', 'E', 'Q'], ['J', 'M', 'P']] →
        assembleLine m line = 0) ∧
      (t.map upperChar = ['L', 'I'] → ops.length < 2 → assembleLine m line = 0) ∧
      (t.map upperChar = ['S', 'U', 'B'] ∨ t.map upperChar = ['B', 'E', 'Q'] → ops.length < 3 → assembleLine m line = 0) ∧
      (t.map upperChar = ['J', 'M', 'P'] → ops.length < 1 → assembleLine m line = 0))

/-- R64 over texts. Commas and spaces separate, any run of them as one, and nothing else does; a mnemonic in any mixture of cases gives the same
word, whatever follows it; so `SUB R1, R2, R3`, in any case of the mnemonic and with any runs of separators, is the one word of R68. -/
def Obligations.MnemonicCaseAndSeparatorsDoNotMatter : Prop :=
  (∀ (l p r : List Char), SeparatorRun p → tokens (l ++ p ++ r) = tokens l ++ tokens r) ∧
  (∀ t : List Char, NoSeparator t → tokens t = if t = [] then [] else [t]) ∧
  (∀ (m : OpMap) (l t u r : List Char), List.Forall₂ CaseVariant t u → NoSeparator t → (l = [] ∨ SeparatorRun l) →
    (r = [] ∨ ∃ c k, r = c :: k ∧ (c = ',' ∨ c = ' ')) →
    assembleLine m (l ++ t ++ r) = assembleLine m (l ++ u ++ r)) ∧
  (∀ (m : OpMap) (t p q r : List Char), List.Forall₂ CaseVariant t ['S', 'U', 'B'] → SeparatorRun p → SeparatorRun q →
    SeparatorRun r →
    assembleLine m (t ++ p ++ ['R', '1'] ++ q ++ ['R', '2'] ++ r ++ ['R', '3']) = encodeR (m.number .sub) 1 2 3)

/-- No line of any text, and so no program, assembles to a word with the number of the name LI (R124, R103): every word of the assembler is an
instruction that the core executes. -/
def Obligations.NoAssembledWordIsTheLiSlotWord : Prop :=
  ∀ (m : OpMap) (lines : List (List Char)), m.wellFormed = true → ∀ w ∈ assembleProgram m lines,
    w.extractLsb' 26 6 ≠ m.number .li ∧ ∃ i, decodeWith m w = .ok i ∧ i ≠ .liSlot

/-- A due operand with no number makes the operand list malformed, so the line gives the zero word, surplus operands or not; EXIT gives it
whatever follows (R66, R72; the reading is log 23). -/
def Obligations.OperandWithNoNumberGivesTheZeroWord : Prop :=
  ∀ (m : OpMap) (line t : List Char) (ops : List (List Char)), tokens line = t :: ops →
    (t.map upperChar = ['E', 'X', 'I', 'T'] → m.wellFormed = true → assembleLine m line = 0) ∧
    (t.map upperChar = ['L', 'I'] → (∃ a ∈ ops.take 2, NoDigit a) → assembleLine m line = 0) ∧
    (t.map upperChar = ['S', 'U', 'B'] ∨ t.map upperChar = ['B', 'E', 'Q'] → (∃ a ∈ ops.take 3, NoDigit a) →
      assembleLine m line = 0) ∧
    (t.map upperChar = ['J', 'M', 'P'] → (∃ a ∈ ops.take 1, NoDigit a) → assembleLine m line = 0)

/-- A line with surplus operands gives the zero word of R72 or the word of its first operands (R67 to R70), and no other: which one is the free
value of log 14. With no surplus operand it is the word of its operands. LI, SUB, BEQ and JMP; of EXIT, `OperandWithNoNumberGivesTheZeroWord`
says that both words are one. -/
def Obligations.SurplusOperandsAreIgnoredOrGiveTheZeroWord : Prop :=
  ∀ (m : OpMap) (line t a b c : List Char) (rest : List (List Char)) (ra rb rc : Nat) (na nb nc : Int),
    parseReg a = some ra → parseReg b = some rb → parseReg c = some rc →
    parseImm a = some na → parseImm b = some nb → parseImm c = some nc →
    (tokens line = t :: a :: b :: rest → t.map upperChar = ['L', 'I'] →
      (assembleLine m line = encodeI (m.number .addi) ra 0 nb ∨ assembleLine m line = 0) ∧
      (rest = [] → assembleLine m line = encodeI (m.number .addi) ra 0 nb)) ∧
    (tokens line = t :: a :: b :: c :: rest → t.map upperChar = ['S', 'U', 'B'] →
      (assembleLine m line = encodeR (m.number .sub) ra rb rc ∨ assembleLine m line = 0) ∧
      (rest = [] → assembleLine m line = encodeR (m.number .sub) ra rb rc)) ∧
    (tokens line = t :: a :: b :: c :: rest → t.map upperChar = ['B', 'E', 'Q'] →
      (assembleLine m line = encodeB (m.number .beq) ra rb nc ∨ assembleLine m line = 0) ∧
      (rest = [] → assembleLine m line = encodeB (m.number .beq) ra rb nc)) ∧
    (tokens line = t :: a :: rest → t.map upperChar = ['J', 'M', 'P'] →
      (assembleLine m line = encodeB (m.number .jmp) 0 0 na ∨ assembleLine m line = 0) ∧
      (rest = [] → assembleLine m line = encodeB (m.number .jmp) 0 0 na))
end

