-- ==== Sys2Proof/Laws/Assembler.lean ====
section
/-! SUPPORT. What the assembler can do, each said once: its tokens, the numbers it reads, the words it gives. -/

namespace Sys2Proof.Machine

theorem isSeparator_iff (c : Char) : isSeparator c = true ↔ c = ',' ∨ c = ' ' := by simp [isSeparator]

/-- Reading on from a text with no separator: it joins the token being read. -/
theorem tokensFrom_append {t : List Char} (h : NoSeparator t) (cur r : List Char) :
    tokensFrom cur (t ++ r) = tokensFrom (t.reverse ++ cur) r := by
  induction t generalizing cur with
  | nil => rfl
  | cons c cs ih =>
    have hc : isSeparator c = false := by
      have := h c (by simp)
      simp [isSeparator, this.1, this.2]
    simp [tokensFrom, hc, ih (fun d hd => h d (by simp [hd]))]

/-- A token is read where there is a first run of decimal digits, and nowhere else (R65). -/
theorem firstRun_eq_none_iff (t : List Char) : firstRun t = none ↔ NoDigit t := by
  induction t with
  | nil => exact ⟨fun _ _ h => by simp at h, fun _ => rfl⟩
  | cons c cs ih =>
    have hn : NoDigit (c :: cs) ↔ (c.toNat < 48 ∨ 57 < c.toNat) ∧ NoDigit cs := List.forall_mem_cons
    rw [hn, ← ih]
    by_cases hd : isDecimalDigit c = true
    · simp only [firstRun, hd, if_true]
      simp [isDecimalDigit] at hd
      simp
      omega
    · simp only [firstRun, hd]
      simp [isDecimalDigit] at hd
      cases firstRun cs with
      | none => simp; omega
      | some p => simp

theorem parseReg_eq_none {t : List Char} (h : NoDigit t) : parseReg t = none := by
  simp [parseReg, (firstRun_eq_none_iff t).2 h]

theorem parseImm_eq_none {t : List Char} (h : NoDigit t) : parseImm t = none := by
  simp [parseImm, (firstRun_eq_none_iff t).2 h]

/-- The statements of the mini-language (R64): no line is an ADD or an ADDI (R71). -/
def InMiniLanguage : AsmStmt → Prop
  | .exit => True
  | .li _ _ => True
  | .sub _ _ _ => True
  | .beq _ _ _ => True
  | .jmp _ => True
  | .add _ _ _ => False
  | .addi _ _ _ => False

/-- Everything `parseTokens` can answer: no statement, or one of the mini-language, with surplus operands or none. -/
theorem parseTokens_cases (toks : List (List Char)) :
    parseTokens toks = .malformed ∨
      ∃ s, InMiniLanguage s ∧ (parseTokens toks = .stmt s ∨ parseTokens toks = .surplus s) := by
  have key : ∀ (rest : List (List Char)) (o : Option AsmStmt), (∀ s, o = some s → InMiniLanguage s) →
      parsedWith rest o = .malformed ∨ ∃ s, InMiniLanguage s ∧ (parsedWith rest o = .stmt s ∨ parsedWith rest o = .surplus s) := by
    intro rest o h
    cases o with
    | none => exact .inl rfl
    | some s =>
      refine .inr ⟨s, h s rfl, ?_⟩
      cases rest with
      | nil => exact .inl rfl
      | cons => exact .inr rfl
  unfold parseTokens
  split
  · exact .inl rfl
  · rename_i name ops
    split_ifs
    · exact .inr ⟨.exit, trivial, .inl rfl⟩
    · unfold parseLi
      split
      · exact key _ _ (by simp only [Option.bind_eq_some_iff, Option.map_eq_some_iff]; rintro _ ⟨_, _, _, _, rfl⟩; trivial)
      · exact .inl rfl
    · unfold parseSub
      split
      · exact key _ _ (by simp only [Option.bind_eq_some_iff, Option.map_eq_some_iff]; rintro _ ⟨_, _, _, _, _, _, rfl⟩; trivial)
      · exact .inl rfl
    · unfold parseBeq
      split
      · exact key _ _ (by simp only [Option.bind_eq_some_iff, Option.map_eq_some_iff]; rintro _ ⟨_, _, _, _, _, _, rfl⟩; trivial)
      · exact .inl rfl
    · unfold parseJmp
      split
      · exact key _ _ (by simp only [Option.map_eq_some_iff]; rintro _ ⟨_, _, rfl⟩; trivial)
      · exact .inl rfl
    · exact .inl rfl

/-- Everything a line can assemble to: the zero word (R72) or the word of a statement of the mini-language (R66 to R70). -/
theorem assembleTokens_cases (m : OpMap) (toks : List (List Char)) :
    assembleTokens m toks = 0 ∨ ∃ s, InMiniLanguage s ∧ assembleTokens m toks = encodeStmt m s := by
  obtain h | ⟨s, hs, h | h⟩ := parseTokens_cases toks
  · exact .inl (by simp [assembleTokens, h])
  · exact .inr ⟨s, hs, by simp [assembleTokens, h]⟩
  · by_cases hf : Config.surplusOperandsIgnored toks = true
    · exact .inr ⟨s, hs, by simp [assembleTokens, h, hf]⟩
    · exact .inl (by simp [assembleTokens, h, hf])

end Sys2Proof.Machine
end

