-- ==== Sys2Proof/Laws/Decode.lean ====
section
/-! SUPPORT. The encoders and the word layout as numbers, the fields of an encoded word, and the lookup of an opcode number. -/

namespace Sys2Proof

theorem toNat_append_add {n m : Nat} (x : BitVec n) (y : BitVec m) :
    (x ++ y).toNat = x.toNat * 2 ^ m + y.toNat := by
  rw [BitVec.toNat_append, ← Nat.shiftLeft_add_eq_or_of_lt y.isLt, Nat.shiftLeft_eq]

/-- A slice of a word as a number. -/
theorem slice_toNat (w : InstrWord) (lo n : Nat) : (w.extractLsb' lo n).toNat = w.toNat / 2 ^ lo % 2 ^ n := by
  rw [BitVec.extractLsb'_toNat, Nat.shiftRight_eq_div_pow]

theorem encodeR_toNat (op : OpNum) (rd rs1 rs2 : Nat) :
    (encodeR op rd rs1 rs2).toNat =
      op.toNat * 2 ^ 26 + (rd % 32) * 2 ^ 21 + (rs1 % 32) * 2 ^ 16 + (rs2 % 32) * 2 ^ 11 := by
  show BitVec.toNat (op ++ regField rd ++ regField rs1 ++ regField rs2 ++ (0 : BitVec 11)) = _
  have h0 : (0 : BitVec 11).toNat = 0 := rfl
  simp only [toNat_append_add, regField, BitVec.toNat_ofNat, h0]
  omega

theorem encodeI_toNat (op : OpNum) (rd rs1 : Nat) (imm : Int) :
    (encodeI op rd rs1 imm).toNat =
      op.toNat * 2 ^ 26 + (rd % 32) * 2 ^ 21 + (rs1 % 32) * 2 ^ 16 + (imm % 65536).toNat := by
  show BitVec.toNat (op ++ regField rd ++ regField rs1 ++ imm16 imm) = _
  simp only [toNat_append_add, regField, imm16, BitVec.toNat_ofNat, BitVec.toNat_ofInt]
  omega

theorem encodeB_toNat (op : OpNum) (rs1 rs2 : Nat) (off : Int) :
    (encodeB op rs1 rs2 off).toNat =
      op.toNat * 2 ^ 26 + (rs1 % 32) * 2 ^ 21 + (rs2 % 32) * 2 ^ 16 + (off % 65536).toNat :=
  encodeI_toNat op rs1 rs2 off

theorem wordOfBytes_little_toNat (b0 b1 b2 b3 : Byte) :
    (wordOfBytes .little b0 b1 b2 b3).toNat =
      b0.toNat + b1.toNat * 2 ^ 8 + b2.toNat * 2 ^ 16 + b3.toNat * 2 ^ 24 := by
  show BitVec.toNat (b3 ++ b2 ++ b1 ++ b0) = _
  simp only [toNat_append_add]
  omega

theorem wordOfBytes_big (b0 b1 b2 b3 : Byte) :
    wordOfBytes .big b0 b1 b2 b3 = wordOfBytes .little b3 b2 b1 b0 := rfl

/-- The bytes of a word, put together again, are the word, in either order. -/
theorem wordOfBytes_slices (w : InstrWord) :
    wordOfBytes .little (w.extractLsb' 0 8) (w.extractLsb' 8 8) (w.extractLsb' 16 8) (w.extractLsb' 24 8) = w := by
  apply BitVec.eq_of_toNat_eq
  have := w.isLt
  rw [wordOfBytes_little_toNat]
  simp only [slice_toNat]
  omega

/-- The slices the decoder takes, as numbers (30_encoding.md R63). -/
theorem decodeFields_toNat (w : InstrWord) :
    (decodeFields w).op.toNat = w.toNat / 2 ^ 26 % 64 ∧ (decodeFields w).fa.toNat = w.toNat / 2 ^ 21 % 32 ∧
      (decodeFields w).fb.toNat = w.toNat / 2 ^ 16 % 32 ∧ (decodeFields w).fc.toNat = w.toNat / 2 ^ 11 % 32 :=
  ⟨slice_toNat .., slice_toNat .., slice_toNat .., slice_toNat ..⟩

@[simp] theorem encodeR_op (op : OpNum) (a b c : Nat) : (decodeFields (encodeR op a b c)).op = op := by
  apply BitVec.eq_of_toNat_eq
  have := op.isLt
  simp only [decodeFields, slice_toNat, encodeR_toNat]
  omega

@[simp] theorem encodeR_fa (op : OpNum) (a b c : Nat) : (decodeFields (encodeR op a b c)).fa = regField a := by
  apply BitVec.eq_of_toNat_eq
  have := op.isLt
  simp only [decodeFields, slice_toNat, encodeR_toNat, regField, BitVec.toNat_ofNat]
  omega

@[simp] theorem encodeR_fb (op : OpNum) (a b c : Nat) : (decodeFields (encodeR op a b c)).fb = regField b := by
  apply BitVec.eq_of_toNat_eq
  have := op.isLt
  simp only [decodeFields, slice_toNat, encodeR_toNat, regField, BitVec.toNat_ofNat]
  omega

@[simp] theorem encodeR_fc (op : OpNum) (a b c : Nat) : (decodeFields (encodeR op a b c)).fc = regField c := by
  apply BitVec.eq_of_toNat_eq
  have := op.isLt
  simp only [decodeFields, slice_toNat, encodeR_toNat, regField, BitVec.toNat_ofNat]
  omega

@[simp] theorem encodeI_op (op : OpNum) (a b : Nat) (n : Int) : (decodeFields (encodeI op a b n)).op = op := by
  apply BitVec.eq_of_toNat_eq
  have := op.isLt
  simp only [decodeFields, slice_toNat, encodeI_toNat]
  omega

@[simp] theorem encodeI_fa (op : OpNum) (a b : Nat) (n : Int) : (decodeFields (encodeI op a b n)).fa = regField a := by
  apply BitVec.eq_of_toNat_eq
  have := op.isLt
  simp only [decodeFields, slice_toNat, encodeI_toNat, regField, BitVec.toNat_ofNat]
  omega

@[simp] theorem encodeI_fb (op : OpNum) (a b : Nat) (n : Int) : (decodeFields (encodeI op a b n)).fb = regField b := by
  apply BitVec.eq_of_toNat_eq
  have := op.isLt
  simp only [decodeFields, slice_toNat, encodeI_toNat, regField, BitVec.toNat_ofNat]
  omega

@[simp] theorem encodeI_simm (op : OpNum) (a b : Nat) (n : Int) :
    (decodeFields (encodeI op a b n)).simm = sext64 (imm16 n) := by
  have h : (encodeI op a b n).extractLsb' 0 16 = imm16 n := by
    apply BitVec.eq_of_toNat_eq
    simp only [slice_toNat, encodeI_toNat, imm16, BitVec.toNat_ofInt]
    omega
  simp only [decodeFields, h]

/-- The B-Type word has the I-Type's positions with other names (R52, R53). -/
theorem encodeB_eq_encodeI (op : OpNum) (a b : Nat) (n : Int) : encodeB op a b n = encodeI op a b n := rfl

/-- What the immediate operand is after masking and sign extension (R54). -/
theorem sext64_imm16_toInt (n : Int) : (sext64 (imm16 n)).toInt = (n + 32768) % 65536 - 32768 := by
  simp only [sext64, imm16]
  rw [BitVec.toInt_signExtend_of_le (by omega), BitVec.toInt_ofInt, Int.bmod_def]
  split <;> omega

theorem immInRange_iff (n : Int) : immInRange n = true ↔ -32768 ≤ n ∧ n ≤ 32767 := by
  simp [immInRange]

@[simp] theorem regField_toNat (r : RegIdx) : regField r.toNat = r := by simp [regField]

@[simp] theorem immOperand_toInt (w : Word) : Machine.immOperand w.toInt = w := by simp [Machine.immOperand]

/-- The lookup answers a name only for that name's own number. -/
theorem opcodeNamed?_some {m : OpMap} {k : OpNum} {n : Opcode} (h : opcodeNamed? m k = some n) : m.number n = k := by
  unfold opcodeNamed? at h
  repeat' split at h
  all_goals first
    | (cases h; simp_all [OpMap.number])
    | exact absurd h (by simp)

/-- The lookup answers nothing exactly for the numbers the map does not use. -/
theorem opcodeNamed?_none {m : OpMap} {k : OpNum} : opcodeNamed? m k = none ↔ ∀ n, m.number n ≠ k := by
  constructor
  · intro h n hn
    subst hn
    unfold opcodeNamed? at h
    cases n <;> simp only [OpMap.number, if_true] at h <;> repeat' split at h
    all_goals cases h
  · intro h
    cases hk : opcodeNamed? m k with
    | none => rfl
    | some n => exact absurd (opcodeNamed?_some hk) (h n)

/-- A map the spec allows gives different names different numbers (R56). -/
theorem OpMap.number_injective {m : OpMap} (hm : m.wellFormed = true) {n k : Opcode} (h : m.number n = m.number k) :
    n = k := by
  simp only [OpMap.wellFormed, Bool.and_eq_true, decide_eq_true_eq, List.nodup_cons, List.mem_cons,
    List.not_mem_nil, or_false, not_or] at hm
  obtain ⟨_, h1, h2, h3, h4, h5, h6, _⟩ := hm
  cases n <;> cases k <;> first
    | rfl
    | (simp only [OpMap.number] at h; simp [h] at h1 h2 h3 h4 h5 h6)

/-- In a map the spec allows, every name's number names it (R56). -/
theorem opcodeNamed?_number {m : OpMap} (hm : m.wellFormed = true) (n : Opcode) :
    opcodeNamed? m (m.number n) = some n := by
  cases h : opcodeNamed? m (m.number n) with
  | none => exact absurd rfl (opcodeNamed?_none.1 h n)
  | some k => rw [OpMap.number_injective hm (opcodeNamed?_some h)]

/-- What decoding does, once: it answers the instruction of the name, or the unknown number. -/
theorem decodeWith_cases (m : OpMap) (w : InstrWord) :
    (∃ n, opcodeNamed? m (decodeFields w).op = some n ∧ decodeWith m w = .ok (instrOfFields (decodeFields w) n)) ∨
      (opcodeNamed? m (decodeFields w).op = none ∧ decodeWith m w = .error (.illegalOpcode (decodeFields w).op)) := by
  unfold decodeWith
  cases h : opcodeNamed? m (decodeFields w).op with
  | some n => exact .inl ⟨n, rfl, rfl⟩
  | none => exact .inr ⟨rfl, rfl⟩

end Sys2Proof
end

