-- ==== Sys2Proof/Laws/Memory.lean ====
section
/-! SUPPORT. The memory operations: what they read back, that they keep the canonical form, and that a canonical memory is determined by
what it reads. -/

namespace Sys2Proof.Machine

theorem Memory.wfFrom_cons (lo a : Nat) (b : Byte) (rest : Memory) :
    Memory.wfFrom lo ((a, b) :: rest) = true ↔
      lo ≤ a ∧ a < Config.memSize ∧ b ≠ Memory.unlisted ∧ Memory.wfFrom (a + 1) rest = true := by
  simp only [Memory.wfFrom, Bool.and_eq_true, decide_eq_true_eq]
  tauto

theorem Memory.wfFrom_mono {lo lo' : Nat} {m : Memory} (h : lo ≤ lo') (hm : Memory.wfFrom lo' m = true) :
    Memory.wfFrom lo m = true := by
  cases m with
  | nil => rfl
  | cons c rest =>
    obtain ⟨a, b⟩ := c
    rw [Memory.wfFrom_cons] at hm ⊢
    exact ⟨by omega, hm.2⟩

/-- Below its first address a canonical tail reads as unlisted. -/
theorem Memory.lookup_below {lo k : Nat} {m : Memory} (hm : Memory.wfFrom lo m = true) (hk : k < lo) :
    m.lookup k = Memory.unlisted := by
  induction m generalizing lo with
  | nil => rfl
  | cons c rest ih =>
    obtain ⟨a, b⟩ := c
    rw [Memory.wfFrom_cons] at hm
    have : a ≠ k := by omega
    simp only [Memory.lookup, if_neg this]
    exact ih hm.2.2.2 (by omega)

theorem Memory.consByte_wf {lo k : Nat} {v : Byte} {m : Memory} (hk : k < Config.memSize) (hlo : lo ≤ k)
    (hm : Memory.wfFrom (k + 1) m = true) : Memory.wfFrom lo (Memory.consByte k v m) = true := by
  unfold Memory.consByte
  split
  · exact Memory.wfFrom_mono (by omega) hm
  · rename_i hv
    exact (Memory.wfFrom_cons ..).2 ⟨hlo, hk, hv, hm⟩

theorem Memory.insert_wfFrom {lo k : Nat} {v : Byte} {m : Memory} (hk : k < Config.memSize) (hlo : lo ≤ k)
    (hm : Memory.wfFrom lo m = true) : Memory.wfFrom lo (m.insert k v) = true := by
  induction m generalizing lo with
  | nil => exact Memory.consByte_wf hk hlo rfl
  | cons c rest ih =>
    obtain ⟨a, b⟩ := c
    have h := (Memory.wfFrom_cons ..).1 hm
    simp only [Memory.insert]
    split
    · exact Memory.consByte_wf hk hlo ((Memory.wfFrom_cons ..).2 ⟨by omega, h.2⟩)
    · split
      · rename_i hka
        subst hka
        exact Memory.consByte_wf hk hlo h.2.2.2
      · exact (Memory.wfFrom_cons ..).2 ⟨h.1, h.2.1, h.2.2.1, ih (by omega) h.2.2.2⟩

/-- A write keeps the canonical form. -/
theorem Memory.insert_wf {k : Nat} {v : Byte} {m : Memory} (hk : k < Config.memSize) (hm : m.wf = true) :
    (m.insert k v).wf = true :=
  Memory.insert_wfFrom hk (Nat.zero_le k) hm

theorem Memory.lookup_consByte {k j : Nat} {v : Byte} {m : Memory} (hm : Memory.wfFrom (k + 1) m = true) :
    (Memory.consByte k v m).lookup j = if j = k then v else m.lookup j := by
  unfold Memory.consByte
  split
  · rename_i hv
    split
    · rename_i hj
      rw [Memory.lookup_below hm (by omega), hv]
    · rfl
  · by_cases hj : k = j
    · simp [Memory.lookup, hj]
    · simp [Memory.lookup, hj, Ne.symm hj]

theorem Memory.lookup_insert_from {lo k j : Nat} {v : Byte} {m : Memory} (hm : Memory.wfFrom lo m = true) :
    (m.insert k v).lookup j = if j = k then v else m.lookup j := by
  induction m generalizing lo with
  | nil => exact Memory.lookup_consByte rfl
  | cons c rest ih =>
    obtain ⟨a, b⟩ := c
    have h := (Memory.wfFrom_cons ..).1 hm
    simp only [Memory.insert]
    split
    · exact Memory.lookup_consByte ((Memory.wfFrom_cons ..).2 ⟨by omega, h.2⟩)
    · split
      · rename_i hka
        subst hka
        rw [Memory.lookup_consByte h.2.2.2]
        by_cases hj : j = k
        · simp [hj]
        · simp [Memory.lookup, hj, Ne.symm hj]
      · simp only [Memory.lookup, ih h.2.2.2]
        by_cases haj : a = j
        · subst haj
          have : a ≠ k := by omega
          simp [this]
        · simp [haj]

/-- Everything a write of one byte does: the byte there is the new one, every other is the old one. -/
theorem Memory.lookup_insert {k j : Nat} {v : Byte} {m : Memory} (hm : m.wf = true) :
    (m.insert k v).lookup j = if j = k then v else m.lookup j :=
  Memory.lookup_insert_from hm

/-- Writing bytes keeps the canonical form. -/
theorem memWriteBytes_wf (bs : List Byte) {m : Memory} {a : Nat} (hm : m.wf = true) :
    (memWriteBytes m a bs).wf = true := by
  induction bs generalizing m a with
  | nil => exact hm
  | cons b rest ih =>
    simp only [memWriteBytes]
    split
    · rename_i ha
      exact ih (Memory.insert_wf ha hm)
    · exact hm

/-- Everything writing bytes does: an address of the memory that they cover holds its byte, every other is as it was. -/
theorem lookup_memWriteBytes (bs : List Byte) {m : Memory} {a j : Nat} (hm : m.wf = true) :
    (memWriteBytes m a bs).lookup j =
      if a ≤ j ∧ j < Config.memSize then (bs[j - a]?).getD (m.lookup j) else m.lookup j := by
  induction bs generalizing m a with
  | nil => simp [memWriteBytes]
  | cons b rest ih =>
    simp only [memWriteBytes]
    split
    · rename_i ha
      rw [ih (Memory.insert_wf ha hm), Memory.lookup_insert hm]
      rcases Nat.lt_trichotomy j a with hj | hj | hj
      · have h1 : ¬ (a + 1 ≤ j ∧ j < Config.memSize) := by omega
        have h2 : ¬ (a ≤ j ∧ j < Config.memSize) := by omega
        have h3 : j ≠ a := by omega
        rw [if_neg h1, if_neg h2, if_neg h3]
      · subst hj
        simp [ha]
      · have h3 : j ≠ a := by omega
        obtain ⟨n, hn⟩ : ∃ n, j - a = n + 1 := ⟨j - a - 1, by omega⟩
        have hn' : j - (a + 1) = n := by omega
        by_cases hs : j < Config.memSize
        · have h1 : a + 1 ≤ j ∧ j < Config.memSize := ⟨by omega, hs⟩
          have h2 : a ≤ j ∧ j < Config.memSize := ⟨by omega, hs⟩
          rw [if_pos h1, if_pos h2, if_neg h3, hn, hn']
          rfl
        · have h1 : ¬ (a + 1 ≤ j ∧ j < Config.memSize) := by omega
          have h2 : ¬ (a ≤ j ∧ j < Config.memSize) := by omega
          rw [if_neg h1, if_neg h2, if_neg h3]
    · rename_i ha
      have h2 : ¬ (a ≤ j ∧ j < Config.memSize) := by omega
      rw [if_neg h2]

@[simp] theorem readByte_inside {m : Memory} {a : Nat} (h : a < 65536) : m.readByte a = .ok (m.lookup a) := by
  simp [Memory.readByte, h]

@[simp] theorem readByte_outside {m : Memory} {a : Nat} (h : ¬ a < 65536) :
    m.readByte a = .error (.addressNamesNoByte a) := by
  simp [Memory.readByte, h]

/-- The fetch's read of four bytes that all lie inside the memory. -/
theorem memReadWord_inside (o : ByteOrder) {m : Memory} {a : Nat} (h : a ≤ 65532) :
    memReadWord o m a = .ok (wordOfBytes o (m.lookup a) (m.lookup (a + 1)) (m.lookup (a + 2)) (m.lookup (a + 3))) := by
  unfold memReadWord
  rw [readByte_inside (by omega), readByte_inside (by omega), readByte_inside (by omega), readByte_inside (by omega)]

theorem reset_mem_wf : State.reset.mem.wf = true := rfl

end Sys2Proof.Machine
end

