-- ==== Sys2Proof/Laws/PerInstr.lean ====
section
/-! SUPPORT. A fact about each instruction as syntax: its word carries its own opcode number in bits 31 to 26
(30_encoding.md R50). -/

namespace Sys2Proof.Laws.OpcodeField

/-- The opcode field of the canonical word is the number the map gives the instruction's name. -/
def Statement (i : Instr) : Prop := ∀ m : OpMap, (decodeFields (encodeWith m i)).op = m.number i.opcode

theorem exit : Statement .exit := fun _ => encodeR_op _ 0 0 0

theorem add (rd rs1 rs2 : RegIdx) : Statement (.add rd rs1 rs2) := fun _ => encodeR_op ..

theorem addi (rd rs1 : RegIdx) (imm : Int) : Statement (.addi rd rs1 imm) := fun _ => encodeI_op ..

theorem liSlot : Statement .liSlot := fun _ => encodeR_op _ 0 0 0

theorem beq (rs1 rs2 : RegIdx) (off : Int) : Statement (.beq rs1 rs2 off) := fun _ => encodeI_op ..

theorem jmp (off : Int) : Statement (.jmp off) := fun _ => encodeI_op _ 0 0 off

theorem sub (rd rs1 rs2 : RegIdx) : Statement (.sub rd rs1 rs2) := fun _ => encodeR_op ..

end Sys2Proof.Laws.OpcodeField
end

