-- ==== Sys2Proof/Laws/State.lean ====
section
/-! SUPPORT. One lemma per field per update of the state, and the read of a register after each. -/

namespace Sys2Proof.Machine

variable (s : State)

@[simp] theorem setPc_regs (v : Word) : (s.setPc v).regs = s.regs := rfl
@[simp] theorem setPc_pc (v : Word) : (s.setPc v).pc = v := rfl
@[simp] theorem setPc_mem (v : Word) : (s.setPc v).mem = s.mem := rfl
@[simp] theorem setPc_running (v : Word) : (s.setPc v).running = s.running := rfl
@[simp] theorem setPc_haltCause (v : Word) : (s.setPc v).haltCause = s.haltCause := rfl
@[simp] theorem setPc_haltAddr (v : Word) : (s.setPc v).haltAddr = s.haltAddr := rfl
@[simp] theorem setPc_haltOpcode (v : Word) : (s.setPc v).haltOpcode = s.haltOpcode := rfl
@[simp] theorem setPc_readReg (v : Word) (i : RegIdx) : (s.setPc v).readReg i = s.readReg i := rfl

@[simp] theorem advancePc_regs : s.advancePc.regs = s.regs := rfl
@[simp] theorem advancePc_pc : s.advancePc.pc = s.pc + 4 := rfl
@[simp] theorem advancePc_mem : s.advancePc.mem = s.mem := rfl
@[simp] theorem advancePc_running : s.advancePc.running = s.running := rfl
@[simp] theorem advancePc_haltCause : s.advancePc.haltCause = s.haltCause := rfl
@[simp] theorem advancePc_haltAddr : s.advancePc.haltAddr = s.haltAddr := rfl
@[simp] theorem advancePc_haltOpcode : s.advancePc.haltOpcode = s.haltOpcode := rfl
@[simp] theorem advancePc_readReg (i : RegIdx) : s.advancePc.readReg i = s.readReg i := rfl

@[simp] theorem halt_regs (c : HaltCause) (a : Word) (o : OpNum) : (s.halt c a o).regs = s.regs := rfl
@[simp] theorem halt_pc (c : HaltCause) (a : Word) (o : OpNum) : (s.halt c a o).pc = s.pc := rfl
@[simp] theorem halt_mem (c : HaltCause) (a : Word) (o : OpNum) : (s.halt c a o).mem = s.mem := rfl
@[simp] theorem halt_running (c : HaltCause) (a : Word) (o : OpNum) : (s.halt c a o).running = false := rfl
@[simp] theorem halt_haltCause (c : HaltCause) (a : Word) (o : OpNum) : (s.halt c a o).haltCause = c := rfl
@[simp] theorem halt_haltAddr (c : HaltCause) (a : Word) (o : OpNum) : (s.halt c a o).haltAddr = a := rfl
@[simp] theorem halt_haltOpcode (c : HaltCause) (a : Word) (o : OpNum) : (s.halt c a o).haltOpcode = o := rfl
@[simp] theorem halt_readReg (c : HaltCause) (a : Word) (o : OpNum) (i : RegIdx) :
    (s.halt c a o).readReg i = s.readReg i := rfl

@[simp] theorem writeReg_zero (v : Word) : s.writeReg 0#5 v = s := by simp [State.writeReg]
@[simp] theorem writeReg_pc (i : RegIdx) (v : Word) : (s.writeReg i v).pc = s.pc := by
  unfold State.writeReg; split <;> rfl
@[simp] theorem writeReg_mem (i : RegIdx) (v : Word) : (s.writeReg i v).mem = s.mem := by
  unfold State.writeReg; split <;> rfl
@[simp] theorem writeReg_running (i : RegIdx) (v : Word) : (s.writeReg i v).running = s.running := by
  unfold State.writeReg; split <;> rfl
@[simp] theorem writeReg_haltCause (i : RegIdx) (v : Word) : (s.writeReg i v).haltCause = s.haltCause := by
  unfold State.writeReg; split <;> rfl
@[simp] theorem writeReg_haltAddr (i : RegIdx) (v : Word) : (s.writeReg i v).haltAddr = s.haltAddr := by
  unfold State.writeReg; split <;> rfl
@[simp] theorem writeReg_haltOpcode (i : RegIdx) (v : Word) : (s.writeReg i v).haltOpcode = s.haltOpcode := by
  unfold State.writeReg; split <;> rfl

@[simp] theorem readReg_zero : s.readReg 0#5 = 0#64 := by simp [State.readReg]

/-- Everything a register write does to the register file (10_state.md R11, 40_control_loop.md R85). -/
theorem readReg_writeReg (i j : RegIdx) (v : Word) :
    (s.writeReg i v).readReg j = if j = i ∧ i ≠ 0#5 then v else s.readReg j := by
  by_cases hi : i = 0#5
  · simp [hi]
  · by_cases hj : j = 0#5
    · have : ¬ (0#5 = i) := fun h => hi h.symm
      simp [hj, this]
    · have hi' : i.toNat ≠ 0 := fun h => hi (BitVec.eq_of_toNat_eq (by simpa using h))
      have hj' : j.toNat ≠ 0 := fun h => hj (BitVec.eq_of_toNat_eq (by simpa using h))
      by_cases hij : j = i
      · subst hij
        simp [State.readReg, State.writeReg, hi]
      · have : i.toNat - 1 ≠ j.toNat - 1 := fun h => hij (BitVec.eq_of_toNat_eq (by omega))
        simp [State.readReg, State.writeReg, hi, hj, hij, this]

theorem readReg_writeReg_same (i : RegIdx) (v : Word) (h : i ≠ 0#5) : (s.writeReg i v).readReg i = v := by
  rw [readReg_writeReg, if_pos ⟨rfl, h⟩]

@[simp] theorem loadImage_regs (b : List Byte) : (s.loadImage b).regs = s.regs := rfl
@[simp] theorem loadImage_pc (b : List Byte) : (s.loadImage b).pc = s.pc := rfl
@[simp] theorem loadImage_mem (b : List Byte) : (s.loadImage b).mem = memWriteBytes s.mem 0 b := rfl
@[simp] theorem loadImage_running (b : List Byte) : (s.loadImage b).running = s.running := rfl
@[simp] theorem loadImage_haltCause (b : List Byte) : (s.loadImage b).haltCause = s.haltCause := rfl
@[simp] theorem loadImage_haltAddr (b : List Byte) : (s.loadImage b).haltAddr = s.haltAddr := rfl
@[simp] theorem loadImage_haltOpcode (b : List Byte) : (s.loadImage b).haltOpcode = s.haltOpcode := rfl

theorem HaltCause.code_injective (c d : HaltCause) (h : c.code = d.code) : c = d := by
  cases c <;> cases d <;> first | rfl | exact absurd h (by decide)

end Sys2Proof.Machine
end

