-- ==== Sys2Proof/Laws/Step.lean ====
section
/-! SUPPORT. What the fetch, the dispatch and the step can do, said once each. -/

namespace Sys2Proof.Machine

/-- Everything a fetch of the machine can do: the two traps in their order, or the word at the pc. -/
theorem fetchWith_default (s : State) :
    fetchWith Config.params s =
      if s.pc.toNat % 4 ≠ 0 then .trap .fetchMisaligned
      else if 65532 < s.pc.toNat then .trap .fetchOutOfRange
      else .word (wordAt s.mem s.pc.toNat) := by
  simp only [fetchWith, fetchMisaligned, fetchOutOfRange, Config.params, decide_eq_true_eq]
  split
  · rfl
  · split
    · rfl
    · rename_i hb
      rw [memReadWord_inside .little (Nat.le_of_not_lt hb)]
      rfl

/-- A fetch under any parameters never reaches an address that names no byte. -/
theorem fetchWith_ne_fault (p : Params) (s : State) (f : Fault) : fetchWith p s ≠ .fault f := by
  unfold fetchWith
  split
  · simp
  · split
    · simp
    · rename_i h
      have hb : s.pc.toNat ≤ 65532 := by simpa [fetchOutOfRange] using h
      rw [memReadWord_inside p.byteOrder hb]
      simp

theorem fetch_ready {s : State} (h : ReadyToFetch s) :
    fetchWith Config.params s = .word (wordAt s.mem s.pc.toNat) := by
  rw [fetchWith_default, if_neg (by omega), if_neg (by omega)]

/-- On the machine's own parameters the parametrised dispatch is `exec`. -/
@[simp] theorem execWith_default (i : Instr) (s : State) : execWith Config.params i s = exec i s := by
  cases i <;> rfl

/-- Everything `exec` can do: a register write, a new pc, or a halt; the answer is always a next state. -/
theorem exec_cases (i : Instr) (s : State) :
    ∃ t, exec i s = .next t ∧
      ((∃ rd v, writesOf i = [rd] ∧ t = s.writeReg rd v) ∨
        (writesOf i = [] ∧ ∃ v, t = s.setPc v) ∨
        (i = .exit ∧ t = s.halt .exit s.currentAddr 0) ∨
        (i = .liSlot ∧ t = s.raiseIllegalOpcode 3)) := by
  cases i with
  | exit => exact ⟨_, rfl, .inr (.inr (.inl ⟨rfl, rfl⟩))⟩
  | add rd rs1 rs2 => exact ⟨_, rfl, .inl ⟨rd, _, rfl, rfl⟩⟩
  | addi rd rs1 imm => exact ⟨_, rfl, .inl ⟨rd, _, rfl, rfl⟩⟩
  | liSlot => exact ⟨_, rfl, .inr (.inr (.inr ⟨rfl, rfl⟩))⟩
  | beq rs1 rs2 off =>
    refine ⟨_, rfl, .inr (.inl ⟨rfl, ?_⟩)⟩
    split
    · exact ⟨_, rfl⟩
    · exact ⟨s.pc, rfl⟩
  | jmp off => exact ⟨_, rfl, .inr (.inl ⟨rfl, _, rfl⟩)⟩
  | sub rd rs1 rs2 => exact ⟨_, rfl, .inl ⟨rd, _, rfl, rfl⟩⟩

/-- Everything a step of the machine can do. -/
theorem step_cases (s : State) :
    (s.running = false ∧ step s = .next s) ∨
      (s.running = true ∧ s.pc.toNat % 4 ≠ 0 ∧ step s = .next (s.raiseFetchFault .fetchMisaligned)) ∨
      (s.running = true ∧ s.pc.toNat % 4 = 0 ∧ 65532 < s.pc.toNat ∧
        step s = .next (s.raiseFetchFault .fetchOutOfRange)) ∨
      (ReadyToFetch s ∧ ∃ i, decode (wordAt s.mem s.pc.toNat) = .ok i ∧ step s = exec i s.advancePc) ∨
      (ReadyToFetch s ∧ opcodeNamed? Config.params.opMap (decodeFields (wordAt s.mem s.pc.toNat)).op = none ∧
        step s = .next (s.advancePc.raiseIllegalOpcode (decodeFields (wordAt s.mem s.pc.toNat)).op)) := by
  by_cases hr : s.running = true
  · by_cases h4 : s.pc.toNat % 4 = 0
    · by_cases hb : 65532 < s.pc.toNat
      · exact .inr (.inr (.inl ⟨hr, h4, hb, by simp [step, cycleWith, hr, fetchWith_default, h4, hb]⟩))
      · have hready : ReadyToFetch s := ⟨hr, h4, by omega⟩
        have hstep : step s = executeWord Config.params (wordAt s.mem s.pc.toNat) s.advancePc := by
          simp [step, cycleWith, hr, fetch_ready hready]
        rw [hstep, executeWord]
        rcases decodeWith_cases Config.params.opMap (wordAt s.mem s.pc.toNat) with ⟨n, _, h⟩ | ⟨hn, h⟩
        · exact .inr (.inr (.inr (.inl ⟨hready, _, h, by simp [h]⟩)))
        · exact .inr (.inr (.inr (.inr ⟨hready, hn, by simp [h]⟩)))
    · exact .inr (.inl ⟨hr, h4, by simp [step, cycleWith, hr, fetchWith_default, h4]⟩)
  · exact .inl ⟨by simpa using hr, by simp [step, cycleWith, hr]⟩

end Sys2Proof.Machine
end

