-- ==== Sys2Proof/Tests/Slice0.lean ====
section
/-! SUPPORT. The model's own tests. Expected values are those of spec/95_test_vectors.md or worked from the rules by hand; each section names
its source. The last section shows that the hypotheses of the statements can be met. -/

namespace Sys2Proof.Tests

open Sys2Proof Sys2Proof.Machine

/-- The memory that holds one word at an address, in the machine's byte order. -/
def wordInMemory (a : Nat) (w : InstrWord) : Memory := memWriteBytes [] a (bytesOfWord .little w)

/-- A running core at `pc` with three registers set and one word there. -/
def coreAt (pc : Word) (w : InstrWord) (x1 x2 x3 : Word) : State :=
  (({ State.reset with pc := pc, mem := wordInMemory pc.toNat w }.writeReg 1 x1).writeReg 2 x2).writeReg 3 x3

/-- A part of the next state, if there is one. -/
def after {α : Type} (o : Host.Outcome State Fault Refusal) (f : State → α) : Option α :=
  match o with
  | .next s => some (f s)
  | .fault _ => none
  | .refused _ => none

/-- The halt state of a core. -/
def record (s : State) : Bool × HaltCause × Word × OpNum × Word :=
  (s.running, s.haltCause, s.haltAddr, s.haltOpcode, s.pc)

/-! ### Well-formedness: an ill-formed term for each check -/

theorem test_imm_above_range_refused : immInRange 32768 = false := by decide
theorem test_imm_below_range_refused : immInRange (-32769) = false := by decide
theorem test_addi_ill_formed : (Instr.addi 1 0 70000).wellFormed = false := by decide
theorem test_beq_ill_formed : (Instr.beq 1 0 32768).wellFormed = false := by decide
theorem test_jmp_ill_formed : (Instr.jmp (-32769)).wellFormed = false := by decide
theorem test_map_with_two_equal_numbers_refused : ({ sub := 1 } : OpMap).wellFormed = false := by decide
theorem test_map_with_exit_not_zero_refused : ({ exit := 7 } : OpMap).wellFormed = false := by decide
theorem test_params_ill_formed : ({ opMap := { jmp := 4 } } : Params).wellFormed = false := by decide
theorem test_default_params_well_formed : Config.params.wellFormed = true := by decide
theorem test_asm_li_ill_formed : (AsmStmt.li 32 0).wellFormed = false ∧ (AsmStmt.li 0 32768).wellFormed = false := by decide
theorem test_asm_sub_ill_formed : (AsmStmt.sub 32 0 0).wellFormed = false ∧ (AsmStmt.sub 0 32 0).wellFormed = false ∧
    (AsmStmt.sub 0 0 32).wellFormed = false := by decide
theorem test_asm_beq_ill_formed : (AsmStmt.beq 32 0 0).wellFormed = false ∧ (AsmStmt.beq 0 32 0).wellFormed = false ∧
    (AsmStmt.beq 0 0 32768).wellFormed = false := by decide
theorem test_asm_jmp_ill_formed : (AsmStmt.jmp 32768).wellFormed = false := by decide
theorem test_asm_add_ill_formed : (AsmStmt.add 32 0 0).wellFormed = false ∧ (AsmStmt.addi 0 0 (-32769)).wellFormed = false := by
  decide
theorem test_memory_not_rising_refused : Memory.wf [(4, 1), (3, 1)] = false := by decide
theorem test_memory_zero_entry_refused : Memory.wf [(4, 0)] = false := by decide
theorem test_memory_entry_outside_refused : Memory.wf [(65536, 1)] = false := by decide

/-! ### Decoding: words written field by field from 30_encoding.md R51 to R53 and R56 -/

theorem test_decode_exit : decode 0b000000_00000_00000_0000000000000000 = .ok .exit := by decide
theorem test_decode_add : decode 0b000001_00011_00001_00010_00000000000 = .ok (.add 3 1 2) := by decide
theorem test_decode_addi : decode 0b000010_00101_00000_0000000000101010 = .ok (.addi 5 0 42) := by decide
theorem test_decode_addi_negative : decode 0b000010_11111_11111_1000000000000000 = .ok (.addi 31 31 (-32768)) := by decide
theorem test_decode_liSlot : decode 0b000011_00001_00000_0000000000101010 = .ok .liSlot := by decide
theorem test_decode_beq : decode 0b000100_00001_00011_0000000000000100 = .ok (.beq 1 3 4) := by decide
theorem test_decode_jmp_ignores_register_fields : decode 0b000101_11111_11111_1111111111111100 = .ok (.jmp (-4)) := by decide
theorem test_decode_sub : decode 0b000110_00001_00010_00011_00000000000 = .ok (.sub 1 2 3) := by decide
theorem test_decode_seven : decode 0b000111_00000_00000_0000000000000000 = .error (.illegalOpcode 7) := by decide
theorem test_encode_words : encode (.add 3 1 2) = 0x04611000 ∧ encode (.addi 1 1 (-1)) = 0x0821FFFF ∧ encode (.sub 1 2 3) = 0x18221800 ∧
    encode (.beq 1 3 4) = 0x10230004 ∧ encode (.jmp (-12)) = 0x1400FFF4 ∧ encode .exit = 0 ∧ encode .liSlot = 0x0C000000 := by decide
theorem test_table_word : decodeTableWord 32 0x18211000 = some (.sub 1 1 2) ∧ decodeTableWord 32 0x80000000 = none := by decide
theorem test_too_few_bytes : decodeBytes Config.params [0, 0, 0] = .error .tooFewBytes := by decide

/-! ### Steps: 95_test_vectors.md 2.3 to 2.6 -/

theorem test_add_wraps : after (step (coreAt 0 0x04611000 0xFFFFFFFFFFFFFFFF 1 9)) (fun s => (s.readReg 3, s.pc)) = some (0, 4) := by
  decide
theorem test_add_reads_before_it_writes :
    after (step (coreAt 8 0x04210800 0x8000000000000001 0 0)) (fun s => s.readReg 1) = some 2 := by decide
theorem test_addi_minus_one : after (step (coreAt 0 0x0821FFFF 0 0 0)) (fun s => s.readReg 1) = some 0xFFFFFFFFFFFFFFFF := by decide
theorem test_addi_to_register_zero :
    after (step (coreAt 0 0x0800FFFF 5 6 7)) (fun s => (s.readReg 0, s.readReg 1, s.pc)) = some (0, 5, 4) := by decide
theorem test_sub_negates : after (step (coreAt 0 0x18600800 7 0 0)) (fun s => s.readReg 3) = some 0xFFFFFFFFFFFFFFF9 := by decide
theorem test_sub_borrows :
    after (step (coreAt 0 0x18221800 0 0x8000000000000000 1)) (fun s => s.readReg 1) = some 0x7FFFFFFFFFFFFFFF := by decide
theorem test_beq_taken : after (step (coreAt 4 0x10230004 5 0 5)) State.pc = some 12 := by decide
theorem test_beq_compares_all_bits : after (step (coreAt 0 0x10220004 0x100000000 0 0)) State.pc = some 4 := by decide
theorem test_jmp_wraps_below_zero : after (step (coreAt 0 0x1400FFF8 0 0 0)) State.pc = some 0xFFFFFFFFFFFFFFFC := by decide
theorem test_jmp_with_junk_to_itself : after (step (coreAt 40 0x17FFFFFC 0 0 0)) State.pc = some 40 := by decide
theorem test_exit_record : after (step (coreAt 12 0x00000000 1 2 3)) record = some (false, .exit, 12, 0, 16) := by decide
theorem test_exit_ignores_low_bits : after (step (coreAt 0 0x03FFFFFF 1 2 3)) record = some (false, .exit, 0, 0, 4) := by decide
theorem test_liSlot_record : after (step (coreAt 4 0x0C20002A 5 0 0)) record = some (false, .illegalOpcode, 4, 3, 8) := by decide
theorem test_liSlot_writes_no_register : after (step (coreAt 4 0x0C20002A 5 0 0)) (fun s => s.readReg 1) = some 5 := by decide
theorem test_illegal_opcode_record :
    after (step (coreAt 0 0xFC000123 11 0 0)) record = some (false, .illegalOpcode, 0, 63, 4) := by decide
theorem test_last_word_is_fetched :
    after (step (coreAt 65532 0x08200001 0 0 0)) (fun s => (s.readReg 1, s.pc, s.running)) = some (1, 65536, true) := by decide
theorem test_out_of_range_record :
    after (step (coreAt 65536 0 0 0 0)) record = some (false, .fetchOutOfRange, 65536, 0, 65536) := by decide
theorem test_misaligned_before_out_of_range :
    after (step (coreAt 65537 0 0 0 0)) record = some (false, .fetchMisaligned, 65537, 0, 65537) := by decide
theorem test_bytewise_fetch :
    after (cycleWith { misalignedFetch := .bytewise } (coreAt 10 0 0 0 0)) record = some (false, .exit, 10, 0, 14) := by decide
theorem test_placed_word_runs_first :
    after (step (State.reset.withFetchWord 32 0x08A0002A)) (fun s => (s.readReg 5, s.pc)) = some (42, 4) := by decide

/-! ### Memory and image: 95_test_vectors.md 2.7 -/

theorem test_little_endian_word : memReadWord .little [(0, 0x2A), (2, 0xA0), (3, 0x08)] 0 = .ok 0x08A0002A := by decide
theorem test_read_beyond_memory : memReadWord .little [] 65533 = .error (.addressNamesNoByte 65536) := by decide
theorem test_writing_zero_removes_the_entry : Memory.insert [(1, 5), (3, 7)] 1 0 = [(3, 7)] := by decide
theorem test_image_of_six_bytes : wordAt (State.reset.loadImage [0x2A, 0x00, 0xA0, 0x08, 0x2B, 0x00]).mem 4 = 0x0000002B := by decide
theorem test_image_is_cut_at_the_end : memWriteBytes [] 65535 [1, 2] = [(65535, 1)] := by decide

/-! ### Assembler: 95_test_vectors.md 2.2 -/

theorem test_assemble_sub : assembleLine {} ['s', 'u', 'b', ' ', 'r', '1', ',', 'r', '2', ',', 'r', '3'] = 0x18221800 := by decide
theorem test_assemble_li_negative : assembleLine {} ['L', 'I', ' ', 'R', '1', ',', ' ', '-', '8'] = 0x0820FFF8 := by decide
theorem test_assemble_li_masked : assembleLine {} ['L', 'I', ' ', 'R', '1', ',', ' ', '7', '0', '0', '0', '0'] = 0x08201170 := by
  decide
theorem test_assemble_register_masked : assembleLine {} ['L', 'I', ' ', 'R', '4', '0', ',', ' ', '5'] = 0x09000005 := by decide
theorem test_assemble_beq : assembleLine {} ['B', 'E', 'Q', ' ', 'R', '1', ',', ' ', 'R', '3', ',', ' ', '4'] = 0x10230004 := by decide
theorem test_assemble_jmp : assembleLine {} ['J', 'M', 'P', ' ', '-', '1', '2'] = 0x1400FFF4 := by decide
theorem test_assemble_add_is_no_mnemonic : assembleLine {} ['A', 'D', 'D', ' ', 'R', '3', ',', 'R', '1', ',', 'R', '2'] = 0 := by decide
theorem test_assemble_exit_with_operand : assembleLine {} ['E', 'X', 'I', 'T', ' ', 'f', 'o', 'o'] = 0 := by decide
theorem test_assemble_surplus_with_malformed_operand :
    assembleLine {} ['L', 'I', ' ', 'R', ',', '4', '2', ',', '7'] = 0 := by decide

/-! ### Hypotheses: for each statement that has some, a concrete case that meets them together -/

theorem witness_DecodeOfEncode : ({ add := 9, sub := 33 } : OpMap).wellFormed = true ∧ (Instr.addi 31 0 (-32768)).wellFormed = true ∧
    (Instr.beq 0 31 32767).wellFormed = true := by decide
theorem witness_Reencoding : decodeWith {} 0x046117FF = .ok (.add 3 1 2) := by decide
theorem witness_IgnoredBits : opcodeNamed? {} (BitVec.extractLsb' 26 6 (0x04611000 : InstrWord)) = some .add ∧
    (0x04611000 : InstrWord) &&& usedBits .add = 0x046117FF &&& usedBits .add := by decide
theorem witness_DecoderRejects : (0x1BFFFFFF : Nat) / 2 ^ 26 = 6 ∧ decode 0x1BFFFFFF = .ok (.sub 31 31 31) ∧
    decode 0x03FFFFFF = .ok .exit := by decide
theorem witness_ReadyToFetch_at_the_last_word : ReadyToFetch (coreAt 65532 0x1400FFF4 1 2 3) := by decide
theorem witness_ArithmeticTouches : (coreAt 4 0 1 2 3).readReg 1 = (coreAt 8 0 1 2 9).readReg 1 ∧
    (coreAt 4 0 1 2 3).readReg 2 = (coreAt 8 0 1 2 9).readReg 2 ∧ (coreAt 4 0 1 2 3).readReg 3 ≠ (coreAt 8 0 1 2 9).readReg 3 := by decide
theorem witness_RegisterTable : coreAt 4 0 1 2 9 = { coreAt 4 0 1 2 3 with regs := (coreAt 4 0 1 2 9).regs } ∧
    ∀ r ∈ readsOf (.sub 3 1 2), (coreAt 4 0 1 2 3).readReg r = (coreAt 4 0 1 2 9).readReg r := ⟨rfl, by decide⟩
theorem witness_ArithmeticLaws : (3 : RegIdx) ≠ 2 ∧ (3 : RegIdx) ≠ 0 := by decide
theorem witness_StepRuns : ReadyToFetch (coreAt 4 0x10230004 1 2 3) ∧
    decode (wordAt (coreAt 4 0x10230004 1 2 3).mem 4) = .ok (.beq 1 3 4) := by decide
theorem witness_StepUnderAnyParameters : (coreAt 10 0x0C20002A 1 2 3).running = true ∧ (coreAt 10 0x0C20002A 1 2 3).pc.toNat ≤ 65532 ∧
    ({ misalignedFetch := .bytewise, liSlot := .refuse } : Params).misalignedFetch = .bytewise ∧
    decodeWith {} (wordAt (coreAt 10 0x0C20002A 1 2 3).mem 10) = .ok .liSlot := by decide
theorem witness_UnknownOpcode : ReadyToFetch (coreAt 0 0x0C20002A 1 2 3) ∧ (wordAt (coreAt 0 0x0C20002A 1 2 3).mem 0).toNat / 2 ^ 26 = 3 ∧
    ReadyToFetch (coreAt 0 0x1C000000 1 2 3) ∧ (wordAt (coreAt 0 0x1C000000 1 2 3).mem 0).toNat / 2 ^ 26 = 7 := by decide
theorem witness_OutOfRange : (coreAt 65536 0 1 2 3).running = true ∧ (coreAt 65536 0 1 2 3).pc.toNat % 4 = 0 ∧
    65532 < (coreAt 65536 0 1 2 3).pc.toNat := by decide
theorem witness_Misaligned : (coreAt 65537 0 1 2 3).running = true ∧ (coreAt 65537 0 1 2 3).pc.toNat % 4 ≠ 0 := by decide
theorem witness_Halted : ((coreAt 0 0 1 2 3).halt .exit 0 0).running = false := by decide
theorem witness_NextPc : (coreAt 65532 0x1400FFF4 1 2 3).running = true ∧ ReadyToFetch (coreAt 65532 0x1400FFF4 1 2 3) ∧
    decode (wordAt (coreAt 65532 0x1400FFF4 1 2 3).mem 65532) = .ok (.jmp (-12)) ∧ ¬ ReadyToFetch (coreAt 65536 0 1 2 3) := by decide
theorem witness_NextPc_beq : ReadyToFetch (coreAt 4 0x10230004 5 0 5) ∧ (coreAt 4 0x10230004 5 0 5).readReg 1 = (coreAt 4 0x10230004 5 0 5).readReg 3 ∧
    decode (wordAt (coreAt 4 0x10230004 5 0 5).mem 4) = .ok (.beq 1 3 4) ∧
    (coreAt 4 0x10230004 5 0 6).readReg 1 ≠ (coreAt 4 0x10230004 5 0 6).readReg 3 := by decide
theorem witness_a_step_that_goes_on : ∃ t, step (coreAt 0 0x08200001 0 2 3) = .next t ∧ t.running = true :=
  ⟨((coreAt 0 0x08200001 0 2 3).setPc 4).writeReg 1 1, rfl, rfl⟩
theorem witness_DestinationZero : ReadyToFetch (coreAt 0 0x04011000 1 2 3) ∧ decode (wordAt (coreAt 0 0x04011000 1 2 3).mem 0) = .ok (.add 0 1 2) ∧
    decode 0x0800FFFF = .ok (.addi 0 0 (-1)) ∧ decode 0x18011000 = .ok (.sub 0 1 2) := by decide
theorem witness_ZeroedMemory : ReadyToFetch State.reset ∧ ∀ k, k < 4 → State.reset.mem.lookup (State.reset.pc.toNat + k) = 0 := by decide
theorem witness_HaltRecordNotRead : (coreAt 0 0x08200001 0 2 3).running = true := by decide
theorem witness_MachineInv : MachineInv { coreAt 4 0x1C000000 1 2 3 with
    running := false, haltCause := .illegalOpcode, haltAddr := 4, haltOpcode := 7, pc := 8 } := by decide
theorem witness_MachineInv_running : MachineInv (coreAt 4 0x10230004 5 0 5) ∧
    ∃ t, step (coreAt 4 0x10230004 5 0 5) = .next t := ⟨by decide, (coreAt 4 0x10230004 5 0 5).setPc 12, rfl⟩
theorem witness_AlignedRun : AlignedRun (coreAt 0 0x14000008 1 2 3) ∧ ∃ t, step (coreAt 0 0x14000008 1 2 3) = .next t := by
  refine ⟨⟨?_, rfl, fun h => by cases h⟩, (coreAt 0 0x14000008 1 2 3).setPc 12, rfl⟩
  intro k hk _
  have hm : (coreAt 0 0x14000008 1 2 3).mem = [(0, 8), (3, 0x14)] := rfl
  rw [hm]
  by_cases h0 : k = 0
  · subst h0
    have hd : decode (wordAt [(0, 8), (3, 0x14)] 0) = .ok (.jmp 8) := by decide
    rw [hd]
    exact ⟨fun off h => by cases h; rfl, fun _ _ _ h => by cases h⟩
  · have hz : ∀ j, k ≤ j → Memory.lookup [(0, 8), (3, 0x14)] j = 0 := by
      intro j hj
      have h1 : (0 : Nat) ≠ j := by omega
      have h2 : (3 : Nat) ≠ j := by omega
      simp [Memory.lookup, h1, h2]
    have hw : wordAt [(0, 8), (3, 0x14)] k = 0 := by
      simp only [wordAt, hz k (by omega), hz (k + 1) (by omega), hz (k + 2) (by omega), hz (k + 3) (by omega)]
      rfl
    have hd : decode (0 : InstrWord) = .ok .exit := by decide
    rw [hw, hd]
    exact ⟨(fun _ h => nomatch h), (fun _ _ _ h => nomatch h)⟩
theorem witness_CanonicalMemories : Memory.wf [(0, 1), (65535, 2)] = true := by decide
theorem witness_SubBlocks : Config.params.liSlot = .fault := by decide
theorem witness_LoadedImage : (coreAt 4 0x10230004 1 2 3).mem.wf = true ∧ (65535 : Nat) < 65536 := by decide
theorem witness_LoadedWords : ([0x08A0002A, 0] : List InstrWord)[1]? = some 0 ∧ 4 * 1 ≤ 65532 ∧ (coreAt 4 0 1 2 3).pc.toNat = 4 * 1 ∧
    (coreAt 4 0 1 2 3).mem.wf = true := by decide
theorem witness_OnlyReset : ({ core := State.reset.halt .exit 0 0, started := true } : HostSession).core.running = false ∧
    ({ core := State.reset.halt .exit 0 0, started := true } : HostSession).apply .reset = .next HostSession.fresh := ⟨rfl, rfl⟩
theorem witness_HostPorts : HostSession.fresh.started = false ∧ HostSession.fresh.core.running = true ∧
    ({ core := State.reset.halt .exit 0 0, started := true } : HostSession).started = true := by decide
theorem witness_PlacedWord : (coreAt 65532 0x10230004 1 2 3).mem.wf = true ∧ ReadyToFetch (coreAt 65532 0x10230004 1 2 3) := by decide
theorem witness_LiIsAddi : ({} : OpMap).wellFormed = true ∧ (-32768 : Int) ≤ -32768 ∧ (-32768 : Int) ≤ 32767 := by decide
theorem witness_Assembled : ({} : OpMap).wellFormed = true ∧ (31 : Nat) < 32 ∧ (-32768 : Int) ≤ 32767 := by decide
theorem witness_Unhandled : tokens [' ', ','] = [] ∧ tokens ['F', 'O', 'O', ' ', 'R', '1'] = [['F', 'O', 'O'], ['R', '1']] ∧
    tokens ['s', 'u', 'b', ' ', '1', ',', '2'] = [['s', 'u', 'b'], ['1'], ['2']] ∧ tokens ['l', 'i', ' ', '1'] = [['l', 'i'], ['1']] ∧
    tokens ['J', 'm', 'p'] = [['J', 'm', 'p']] ∧ ['J', 'm', 'p'].map upperChar = ['J', 'M', 'P'] := by decide
theorem witness_MnemonicCase : List.Forall₂ CaseVariant ['s', 'U', 'b'] ['S', 'U', 'B'] ∧ NoSeparator ['s', 'U', 'b'] ∧
    SeparatorRun [',', ' '] ∧ NoSeparator ['R', '1'] :=
  ⟨.cons (.inr (.inl (by decide))) (.cons (.inl rfl) (.cons (.inr (.inl (by decide))) .nil)), by simp [NoSeparator], by simp [SeparatorRun], by simp [NoSeparator]⟩
theorem witness_NoLiSlotWord : ({} : OpMap).wellFormed = true ∧
    (0x08A0002A : InstrWord) ∈ assembleProgram {} [[], ['L', 'I', ' ', 'R', '5', ',', ' ', '4', '2']] := by decide
theorem witness_NoNumber : tokens ['L', 'I', ' ', 'R', ',', '4', '2', ',', '7'] = [['L', 'I'], ['R'], ['4', '2'], ['7']] ∧ NoDigit ['R'] :=
  ⟨by decide, by simp [NoDigit]⟩
theorem witness_NoNumber_beq_jmp : tokens ['b', 'e', 'q', ' ', '1', ' ', '2', ' ', '-'] = [['b', 'e', 'q'], ['1'], ['2'], ['-']] ∧
    tokens ['J', 'M', 'P', ' ', 'x'] = [['J', 'M', 'P'], ['x']] ∧ NoDigit ['-'] ∧ NoDigit ['x'] :=
  ⟨by decide, by decide, by simp [NoDigit], by simp [NoDigit]⟩
theorem witness_Surplus : tokens ['L', 'I', ' ', '5', ',', '4', '2', ',', '7'] = [['L', 'I'], ['5'], ['4', '2'], ['7']] ∧
    tokens ['s', 'u', 'b', ' ', '5', ',', '4', '2', ',', '7', ' ', '9'] = [['s', 'u', 'b'], ['5'], ['4', '2'], ['7'], ['9']] ∧
    tokens ['B', 'E', 'Q', ' ', '5', ',', '4', '2', ',', '7'] = [['B', 'E', 'Q'], ['5'], ['4', '2'], ['7']] ∧
    tokens ['J', 'M', 'P', ' ', '5', ' ', '9'] = [['J', 'M', 'P'], ['5'], ['9']] := by decide
theorem witness_Surplus_operands : parseReg ['5'] = some 5 ∧ parseReg ['4', '2'] = some 42 ∧ parseReg ['7'] = some 7 ∧
    parseImm ['5'] = some 5 ∧ parseImm ['4', '2'] = some 42 ∧ parseImm ['7'] = some 7 := by decide

end Sys2Proof.Tests
end

section
/-! PROOFS. The step under any choice of the parameters of 00_scope.md R5: the fetch that passes its checks, the dispatch, the reserved
LI_SLOT word. -/

namespace Sys2Proof.Machine

/-- The alignment check passes where there is none, and at every aligned address (20_memory.md R33). -/
theorem fetchMisaligned_eq_false {p : Params} {pc : Word} (h : p.misalignedFetch = .bytewise ∨ pc.toNat % 4 = 0) :
    fetchMisaligned p pc = false := by
  unfold fetchMisaligned
  rcases h with hbytewise | haligned
  · simp [hbytewise]
  · split
    · simp [haligned]
    · rfl

/-- The one value of OOB_FETCH lets every address up to 65532 pass (20_memory.md R34). -/
theorem fetchOutOfRange_eq_false (p : Params) {pc : Word} (h : pc.toNat ≤ 65532) : fetchOutOfRange p pc = false := by
  unfold fetchOutOfRange
  simpa using h

/-- A fetch that passes both checks gives the four bytes from the pc up, in the chosen order (20_memory.md R31). -/
theorem fetchWith_eq_word {p : Params} {s : State} (hpc : s.pc.toNat ≤ 65532)
    (halign : p.misalignedFetch = .bytewise ∨ s.pc.toNat % 4 = 0) :
    fetchWith p s = .word (wordOfBytes p.byteOrder (s.mem.lookup s.pc.toNat) (s.mem.lookup (s.pc.toNat + 1))
      (s.mem.lookup (s.pc.toNat + 2)) (s.mem.lookup (s.pc.toNat + 3))) := by
  simp [fetchWith, fetchMisaligned_eq_false halign, fetchOutOfRange_eq_false p hpc, memReadWord_inside p.byteOrder hpc]

/-- A decoded word is executed by the dispatch. -/
theorem executeWord_of_decodeWith {p : Params} {w : InstrWord} {i : Instr} (h : decodeWith p.opMap w = .ok i) (s : State) :
    executeWord p w s = execWith p i s := by
  simp [executeWord, h]

/-- A running core executes the fetched word after the pc's advance (40_control_loop.md R83, R86). -/
theorem cycleWith_of_fetchWith {p : Params} {s : State} {w : InstrWord} (hrun : s.running = true) (hfetch : fetchWith p s = .word w) :
    cycleWith p s = executeWord p w s.advancePc := by
  simp [cycleWith, hrun, hfetch]

/-- The parameters matter to the LI_SLOT word alone (30_encoding.md R59). -/
theorem execWith_of_ne_liSlot (p : Params) {i : Instr} (h : i ≠ .liSlot) (s : State) : execWith p i s = exec i s := by
  cases i with
  | liSlot => exact absurd rfl h
  | exit | add | addi | beq | jmp | sub => rfl

theorem execWith_liSlot_refuse {p : Params} (h : p.liSlot = .refuse) (s : State) :
    execWith p .liSlot s = .refused .liSlotRefused := by
  simp [execWith, liSlotEffect, h]

theorem execWith_liSlot_fault {p : Params} (h : p.liSlot = .fault) (s : State) :
    execWith p .liSlot s = .next (s.raiseIllegalOpcode (p.opMap.number .li)) := by
  simp [execWith, liSlotEffect, h]

/-- After the advance, the instruction in execution is the one the pc stood at. -/
@[simp] theorem advancePc_currentAddr (s : State) : s.advancePc.currentAddr = s.pc := by
  simp [State.currentAddr]

/-- ILLEGAL_OPCODE after the advance (60_exceptions.md R131): the record, and what stays. -/
theorem advancePc_raiseIllegalOpcode (s : State) (op : OpNum) :
    HaltedWith (s.advancePc.raiseIllegalOpcode op) .illegalOpcode s.pc op ∧
      (s.advancePc.raiseIllegalOpcode op).pc = s.pc + 4 ∧
      SameRegs s (s.advancePc.raiseIllegalOpcode op) ∧ SameMemory s (s.advancePc.raiseIllegalOpcode op) :=
  ⟨⟨rfl, rfl, advancePc_currentAddr s, rfl⟩, rfl, fun _ => rfl, fun _ => rfl⟩

/-- Settles O22: the fetch passes its checks, so the step is the parametrised dispatch on the advanced state, which differs from `exec` on
the LI_SLOT word alone. -/
theorem stepUnderAnyParametersRunsTheDecodedInstruction : Obligations.StepUnderAnyParametersRunsTheDecodedInstruction := by
  intro p s i hrun hpc halign hdecode
  have hstep : cycleWith p s = execWith p i s.advancePc := by
    rw [cycleWith_of_fetchWith hrun (fetchWith_eq_word hpc halign), executeWord_of_decodeWith hdecode]
  refine ⟨fun hi => ?other, fun hi hrefuse => ?refuse, fun hi hfault => ?fault⟩
  case other =>
    rw [hstep, execWith_of_ne_liSlot p hi]
    rfl
  case refuse =>
    subst hi
    rw [hstep, execWith_liSlot_refuse hrefuse]
  case fault =>
    subst hi
    exact ⟨_, hstep.trans (execWith_liSlot_fault hfault _), advancePc_raiseIllegalOpcode s _⟩

/-- A core whose bytes at the misaligned address 10 are, in big-endian order, an LI_SLOT word with junk below its opcode. -/
def bigEndianLiSlotCore : State :=
  { State.reset with pc := 10, mem := [(10, 0x0C), (11, 0x20), (13, 0x2A)] }

/-- The fault clause of O22 on a concrete core, with parameters other than the machine's. -/
theorem witness_liSlot_fault_bigEndian_bytewise :
    ∃ t, cycleWith { byteOrder := .big, misalignedFetch := .bytewise } bigEndianLiSlotCore = .next t ∧
      HaltedWith t .illegalOpcode 10 3 ∧ t.pc = 14 ∧ SameRegs bigEndianLiSlotCore t ∧ SameMemory bigEndianLiSlotCore t :=
  (stepUnderAnyParametersRunsTheDecodedInstruction { byteOrder := .big, misalignedFetch := .bytewise } bigEndianLiSlotCore .liSlot
    rfl (by decide) (.inl rfl) (by decide)).2.2 rfl rfl

end Sys2Proof.Machine
end

section
/-! PROOFS. The state across a step (10_state.md): the pc, the running flag and the halt record, the registers an instruction uses, the
reset values. -/

namespace Sys2Proof.Machine

/-! ### The pc: its advance and the target law -/

/-- The advance from an address a fetch serves does not wrap (10_state.md R14). -/
theorem advance_toNat {pc : Word} (h : pc.toNat ≤ 65532) : (pc + 4).toNat = pc.toNat + 4 := by
  bv_omega

/-- The target law as numbers (42_control_transfer.md R112). -/
theorem branchTarget_toNat (pc : Word) (off : Int) :
    ((branchTarget pc off).toNat : Int) = ((pc.toNat : Int) + off) % 2 ^ 64 := by
  simp only [branchTarget, immOperand, BitVec.toNat_add, BitVec.toNat_ofInt]
  omega

/-- The target law from the address of the branch itself. -/
theorem branchTarget_advance_toNat {pc : Word} (h : pc.toNat ≤ 65532) (off : Int) :
    ((branchTarget (pc + 4) off).toNat : Int) = ((pc.toNat : Int) + 4 + off) % 2 ^ 64 := by
  rw [branchTarget_toNat, advance_toNat h, Nat.cast_add, Nat.cast_ofNat]

theorem advance_aligned {pc : Word} (h : pc.toNat % 4 = 0) : (pc + 4).toNat % 4 = 0 := by
  bv_omega

/-- 4 divides 2^64, so wrapping keeps the alignment (10_state.md R15 (d)). -/
theorem branchTarget_aligned {pc : Word} {off : Int} (hpc : pc.toNat % 4 = 0) (hoff : off % 4 = 0) :
    (branchTarget pc off).toNat % 4 = 0 := by
  have := branchTarget_toNat pc off
  omega

/-! ### What an instruction does to the pc and to memory -/

theorem exec_mem {i : Instr} {s t : State} (h : exec i s = .next t) : t.mem = s.mem := by
  obtain ⟨t', ht, hcases⟩ := exec_cases i s
  obtain rfl : t' = t := Host.Outcome.next.inj (ht.symm.trans h)
  obtain ⟨rd, v, -, rfl⟩ | ⟨-, v, rfl⟩ | ⟨-, rfl⟩ | ⟨-, rfl⟩ := hcases
  · exact writeReg_mem s rd v
  · rfl
  · rfl
  · rfl

theorem exec_jmp_pc {off : Int} {s t : State} (h : exec (.jmp off) s = .next t) : t.pc = branchTarget s.pc off := by
  cases h
  rfl

/-- BEQ as one write of the pc (42_control_transfer.md R110). -/
theorem exec_beq_eq_setPc (rs1 rs2 : RegIdx) (off : Int) (s : State) :
    exec (.beq rs1 rs2 off) s =
      .next (s.setPc (if s.readReg rs1 = s.readReg rs2 then branchTarget s.pc off else s.pc)) := by
  by_cases heq : s.readReg rs1 = s.readReg rs2
  · simp [exec, execBeq, aluEqual, heq]
  · simp [exec, execBeq, aluEqual, heq, State.setPc]

theorem exec_beq_pc {rs1 rs2 : RegIdx} {off : Int} {s t : State} (h : exec (.beq rs1 rs2 off) s = .next t) :
    t.pc = if s.readReg rs1 = s.readReg rs2 then branchTarget s.pc off else s.pc := by
  cases (exec_beq_eq_setPc rs1 rs2 off s).symm.trans h
  rfl

/-- Only the transfers of control move the pc (40_control_loop.md R86). -/
theorem exec_pc_of_no_transfer {i : Instr} {s t : State} (hjmp : ∀ off, i ≠ .jmp off)
    (hbeq : ∀ rs1 rs2 off, i ≠ .beq rs1 rs2 off) (h : exec i s = .next t) : t.pc = s.pc := by
  cases i with
  | jmp off => exact absurd rfl (hjmp off)
  | beq rs1 rs2 off => exact absurd rfl (hbeq rs1 rs2 off)
  | exit | liSlot => cases h; rfl
  | add | addi | sub => cases h; exact writeReg_pc ..

/-- An instruction whose displacement, if it has one, is a multiple of 4 keeps the pc a multiple of 4. -/
theorem exec_pc_aligned {i : Instr} {s t : State} (h : exec i s = .next t) (hpc : s.pc.toNat % 4 = 0)
    (hjmp : ∀ off, i = .jmp off → off % 4 = 0) (hbeq : ∀ rs1 rs2 off, i = .beq rs1 rs2 off → off % 4 = 0) :
    t.pc.toNat % 4 = 0 := by
  cases i with
  | jmp off =>
    rw [exec_jmp_pc h]
    exact branchTarget_aligned hpc (hjmp off rfl)
  | beq rs1 rs2 off =>
    rw [exec_beq_pc h]
    split
    · exact branchTarget_aligned hpc (hbeq rs1 rs2 off rfl)
    · exact hpc
  | exit | add | addi | liSlot | sub =>
    rw [exec_pc_of_no_transfer (by simp) (by simp) h]
    exact hpc

/-! ### Register 0 as a destination (10_state.md R11) -/

theorem exec_add_rd_zero (rs1 rs2 : RegIdx) (s : State) : exec (.add 0 rs1 rs2) s = .next s := by
  simp [exec, execAdd]

theorem exec_addi_rd_zero (rs1 : RegIdx) (imm : Int) (s : State) : exec (.addi 0 rs1 imm) s = .next s := by
  simp [exec, execAddi]

theorem exec_sub_rd_zero (rs1 rs2 : RegIdx) (s : State) : exec (.sub 0 rs1 rs2) s = .next s := by
  simp [exec, execSub]

/-! ### What an instruction does to the running flag and the halt record -/

/-- The state with another running flag and another halt record. -/
def State.withHaltState (s : State) (r : Bool) (c : HaltCause) (a : Word) (o : OpNum) : State :=
  { s with running := r, haltCause := c, haltAddr := a, haltOpcode := o }

theorem writeReg_withHaltState (s : State) (r : Bool) (c : HaltCause) (a : Word) (o : OpNum) (i : RegIdx) (v : Word) :
    (s.withHaltState r c a o).writeReg i v = (s.writeReg i v).withHaltState r c a o := by
  unfold State.writeReg
  split <;> rfl

/-- From `s` the action `f` either keeps the running flag and the halt record, and does the same to all else whatever they are; or it
halts, and its result does not depend on them. -/
def HaltStateUnread (f : State → Host.Outcome State Fault Refusal) (s : State) : Prop :=
  ∃ t, f s = .next t ∧
    ((SameHaltState s t ∧ ∀ r c a o, f (s.withHaltState r c a o) = .next (t.withHaltState r c a o)) ∨
      (t.running = false ∧ ∀ r c a o, f (s.withHaltState r c a o) = .next t))

/-- A halt writes the running flag and the whole record (60_exceptions.md R135). -/
theorem haltStateUnread_halt (s : State) (cause : HaltCause) (addr : Word) (op : OpNum) :
    HaltStateUnread (fun u => .next (u.halt cause addr op)) s :=
  ⟨_, rfl, .inr ⟨rfl, fun _ _ _ _ => rfl⟩⟩

theorem sameHaltState_writeReg (s : State) (i : RegIdx) (v : Word) : SameHaltState s (s.writeReg i v) :=
  ⟨writeReg_running .., writeReg_haltCause .., writeReg_haltAddr .., writeReg_haltOpcode ..⟩

/-- No instruction reads the running flag or the halt record (10_state.md R17, R18). -/
theorem exec_haltStateUnread (i : Instr) (s : State) : HaltStateUnread (exec i) s := by
  cases i with
  | exit => exact haltStateUnread_halt s .exit s.currentAddr 0
  | liSlot => exact haltStateUnread_halt s .illegalOpcode s.currentAddr 3
  | jmp off => exact ⟨_, rfl, .inl ⟨⟨rfl, rfl, rfl, rfl⟩, fun _ _ _ _ => rfl⟩⟩
  | beq rs1 rs2 off =>
    exact ⟨_, exec_beq_eq_setPc rs1 rs2 off s, .inl ⟨⟨rfl, rfl, rfl, rfl⟩, fun _ _ _ _ => exec_beq_eq_setPc ..⟩⟩
  | add | addi | sub =>
    exact ⟨_, rfl, .inl ⟨sameHaltState_writeReg .., fun _ _ _ _ => congrArg _ (writeReg_withHaltState ..)⟩⟩

/-- The instructions that halt the core, each with its cause (43_system.md R120, R124). -/
theorem exec_running {i : Instr} {s t : State} (h : exec i s = .next t) :
    (i ≠ .exit ∧ i ≠ .liSlot ∧ t.running = s.running) ∨
      ((i = .exit ∨ i = .liSlot) ∧ t.running = false ∧ t.haltCause ≠ .fetchMisaligned) := by
  cases i with
  | exit => cases h; exact .inr ⟨.inl rfl, rfl, by simp⟩
  | liSlot => cases h; exact .inr ⟨.inr rfl, rfl, by simp [State.raiseIllegalOpcode]⟩
  | jmp off => cases h; exact .inl ⟨by simp, by simp, rfl⟩
  | beq rs1 rs2 off =>
    cases (exec_beq_eq_setPc rs1 rs2 off s).symm.trans h
    exact .inl ⟨by simp, by simp, rfl⟩
  | add | addi | sub => cases h; exact .inl ⟨by simp, by simp, writeReg_running ..⟩

/-! ### The step -/

/-- At an address the fetch serves, a decoded word is executed after the advance of the pc (40_control_loop.md R83, R86). -/
theorem step_of_decode {s : State} {i : Instr} (hready : ReadyToFetch s) (hdecode : decode (wordAt s.mem s.pc.toNat) = .ok i) :
    step s = exec i s.advancePc := by
  rw [step, cycleWith_of_fetchWith hready.1 (fetch_ready hready), executeWord_of_decodeWith hdecode, execWith_default]

/-- A word whose opcode has no name is no instruction (30_encoding.md R59). -/
theorem decode_ne_ok_of_opcodeNamed?_none {w : InstrWord}
    (h : opcodeNamed? Config.params.opMap (decodeFields w).op = none) (i : Instr) : decode w ≠ .ok i := by
  simp [decode, decodeWith, h]

theorem step_mem {s t : State} (h : step s = .next t) : t.mem = s.mem := by
  obtain ⟨-, hs⟩ | ⟨-, -, hs⟩ | ⟨-, -, -, hs⟩ | ⟨-, i, -, hs⟩ | ⟨-, -, hs⟩ := step_cases s
  case inr.inr.inr.inl => exact exec_mem (s := s.advancePc) (hs.symm.trans h)
  all_goals
    cases hs.symm.trans h
    rfl

/-- A step of a running core goes on exactly after a decoded instruction other than EXIT and the LI_SLOT word. -/
theorem step_halts_iff {s t : State} (hrun : s.running = true) (hstep : step s = .next t) :
    t.running = false ↔
      ∀ i, ReadyToFetch s → decode (wordAt s.mem s.pc.toNat) = .ok i → i = .exit ∨ i = .liSlot := by
  obtain ⟨hhalted, -⟩ | ⟨-, hmis, hs⟩ | ⟨-, -, hout, hs⟩ | ⟨hready, i, hdecode, hs⟩ | ⟨-, hnone, hs⟩ := step_cases s
  case inl =>
    rw [hrun] at hhalted
    cases hhalted
  case inr.inl =>
    cases hs.symm.trans hstep
    exact iff_of_true rfl fun _ ⟨_, hal, _⟩ _ => absurd hal hmis
  case inr.inr.inl =>
    cases hs.symm.trans hstep
    exact iff_of_true rfl fun _ ⟨_, _, hle⟩ _ => absurd hle (by omega)
  case inr.inr.inr.inl =>
    obtain ⟨hexit, hli, hsame⟩ | ⟨hhalts, hoff, -⟩ := exec_running (hs.symm.trans hstep)
    · refine iff_of_false ?_ fun h => (h i hready hdecode).elim hexit hli
      simp [hsame, hrun]
    · refine iff_of_true hoff fun j _ hj => ?_
      cases hdecode.symm.trans hj
      exact hhalts
  case inr.inr.inr.inr =>
    cases hs.symm.trans hstep
    exact iff_of_true rfl fun i _ h => absurd h (decode_ne_ok_of_opcodeNamed?_none hnone i)

theorem step_running_of_running {s t : State} (hstep : step s = .next t) (ht : t.running = true) : s.running = true := by
  cases hrun : s.running with
  | true => rfl
  | false =>
    have hs : step s = .next s := by simp [step, cycleWith, hrun]
    cases hs.symm.trans hstep
    exact hrun.symm.trans ht

/-- What a fetched word does depends on neither the running flag nor the halt record. -/
theorem executeWord_haltStateUnread (w : InstrWord) (s : State) : HaltStateUnread (executeWord Config.params w) s := by
  cases hd : decodeWith Config.params.opMap w with
  | ok i =>
    have hw : executeWord Config.params w = exec i := by
      funext u
      rw [executeWord_of_decodeWith hd, execWith_default]
    rw [hw]
    exact exec_haltStateUnread i s
  | error e =>
    have hw : executeWord Config.params w = fun u => .next (u.raiseIllegalOpcode (decodeFields w).op) := by
      funext u
      simp [executeWord, hd]
    rw [hw]
    exact haltStateUnread_halt s .illegalOpcode s.currentAddr _

/-! ### The registers an instruction uses -/

/-- What the table of R12 promises of two runs, from `s` to `t` and from `u` to `v`, of an instruction that writes the registers `ws`. -/
def RunsDifferOnlyOutside (ws : List RegIdx) (s u t v : State) : Prop :=
  (∀ r ∈ ws, t.readReg r = v.readReg r) ∧
    (∀ r, r ∉ ws → t.readReg r = s.readReg r ∧ v.readReg r = u.readReg r) ∧
    v = { t with regs := v.regs }

/-- Two runs that write one value to one register. -/
theorem runsDifferOnlyOutside_writeReg {s u : State} (hu : u = { s with regs := u.regs }) (rd : RegIdx) (x : Word) :
    RunsDifferOnlyOutside [rd] s u (s.writeReg rd x) (u.writeReg rd x) := by
  refine ⟨?written, ?others, ?rest⟩
  case written =>
    intro r hr
    obtain rfl := List.mem_singleton.1 hr
    by_cases h0 : r = 0#5
    · simp [h0]
    · rw [readReg_writeReg_same s r x h0, readReg_writeReg_same u r x h0]
  case others =>
    intro r hr
    have hne : r ≠ rd := fun h => hr (List.mem_singleton.2 h)
    simp [readReg_writeReg, hne]
  case rest =>
    rw [hu]
    unfold State.writeReg
    split <;> rfl

/-- Two runs that write no register. -/
theorem runsDifferOnlyOutside_nil {s u t v : State} (ht : t.regs = s.regs) (hv : v.regs = u.regs)
    (hrest : v = { t with regs := v.regs }) : RunsDifferOnlyOutside [] s u t v :=
  ⟨by simp, fun _ _ => by simp [State.readReg, ht, hv], hrest⟩

/-! ### Reset -/

@[simp] theorem reset_readReg (i : RegIdx) : State.reset.readReg i = 0 := by
  simp [State.readReg, State.reset]

/-- A loaded image stands over zeroed memory from address 0 (10_state.md R20, 20_memory.md R36). -/
theorem reset_loadImage_readByte (image : List Byte) {a : Nat} (h : a < 65536) :
    (State.reset.loadImage image).mem.readByte a = .ok ((image[a]?).getD 0) := by
  rw [readByte_inside h, loadImage_mem, lookup_memWriteBytes image reset_mem_wf, if_pos ⟨Nat.zero_le a, h⟩]
  rfl

theorem reset_loadImage_ready (image : List Byte) : ReadyToFetch (State.reset.loadImage image) :=
  ⟨rfl, rfl, Nat.zero_le _⟩

/-! ### The obligations -/

/-- Settles O37: memory stays, so the displacements stay aligned; every way to move the pc adds a multiple of 4, and from an aligned pc no fetch
takes FETCH_MISALIGNED. -/
theorem alignedDisplacementsKeepThePcAligned : Obligations.AlignedDisplacementsKeepThePcAligned := by
  rintro s t ⟨hdisp, hpc, hcause⟩ hstep
  refine ⟨by rwa [step_mem hstep], ?_⟩
  obtain ⟨-, hs⟩ | ⟨-, hmis, -⟩ | ⟨-, -, -, hs⟩ | ⟨⟨hrun, -, hle⟩, i, hdecode, hs⟩ | ⟨-, -, hs⟩ := step_cases s
  case inl =>
    cases hs.symm.trans hstep
    exact ⟨hpc, hcause⟩
  case inr.inl => exact absurd hpc hmis
  case inr.inr.inl =>
    cases hs.symm.trans hstep
    exact ⟨hpc, fun _ => by simp [State.raiseFetchFault]⟩
  case inr.inr.inr.inl =>
    have hexec : exec i s.advancePc = .next t := hs.symm.trans hstep
    obtain ⟨hjmp, hbeq⟩ := hdisp s.pc.toNat hpc hle
    refine ⟨exec_pc_aligned hexec (advance_aligned hpc) (fun off hi => hjmp off (hi ▸ hdecode))
      (fun rs1 rs2 off hi => hbeq rs1 rs2 off (hi ▸ hdecode)), fun hhalted => ?_⟩
    obtain ⟨-, -, hsame⟩ | ⟨-, -, hne⟩ := exec_running hexec
    · rw [hsame, advancePc_running, hrun] at hhalted
      cases hhalted
    · exact hne
  case inr.inr.inr.inr =>
    cases hs.symm.trans hstep
    exact ⟨advance_aligned hpc, fun _ => by simp [State.raiseIllegalOpcode]⟩

/-- Settles O18: the instructions that write a register compute its value from registers they read, and the others write the pc or the halt
state, of which BEQ's pc depends on registers it reads. -/
theorem instructionsUseOnlyTheRegistersOfTheTable : Obligations.InstructionsUseOnlyTheRegistersOfTheTable := by
  intro i s u hu hreads
  suffices ∃ t v, exec i s = .next t ∧ exec i u = .next v ∧ RunsDifferOnlyOutside (writesOf i) s u t v from this
  cases i with
  | exit | liSlot | jmp off =>
    refine ⟨_, _, rfl, rfl, runsDifferOnlyOutside_nil rfl rfl ?_⟩
    rw [hu]
    rfl
  | beq rs1 rs2 off =>
    refine ⟨_, _, exec_beq_eq_setPc rs1 rs2 off s, exec_beq_eq_setPc rs1 rs2 off u, runsDifferOnlyOutside_nil rfl rfl ?_⟩
    have hpc : u.pc = s.pc := by rw [hu]
    rw [← hreads rs1 (by simp [readsOf]), ← hreads rs2 (by simp [readsOf]), hpc, hu]
    rfl
  | add rd rs1 rs2 | sub rd rs1 rs2 =>
    refine ⟨_, _, rfl, rfl, ?_⟩
    rw [← hreads rs1 (by simp [readsOf]), ← hreads rs2 (by simp [readsOf])]
    exact runsDifferOnlyOutside_writeReg hu rd _
  | addi rd rs1 imm =>
    refine ⟨_, _, rfl, rfl, ?_⟩
    rw [← hreads rs1 (by simp [readsOf])]
    exact runsDifferOnlyOutside_writeReg hu rd _

/-- Settles O28: a fetch fault leaves the pc; past the fetch it is advanced, and of the instructions JMP and BEQ alone move it again. -/
theorem nextPcOfEveryStep : Obligations.NextPcOfEveryStep := by
  intro s hrun
  obtain ⟨hhalted, -⟩ | ⟨-, hmis, hs⟩ | ⟨-, -, hout, hs⟩ | ⟨hready, i, hdecode, hs⟩ | ⟨hready, hnone, hs⟩ := step_cases s
  case inl =>
    rw [hrun] at hhalted
    cases hhalted
  case inr.inl => exact ⟨_, hs, fun _ => rfl, fun ⟨_, hal, _⟩ => absurd hal hmis⟩
  case inr.inr.inl => exact ⟨_, hs, fun _ => rfl, fun ⟨_, _, hle⟩ => absurd hle (by omega)⟩
  case inr.inr.inr.inl =>
    obtain ⟨t, ht, -⟩ := exec_cases i s.advancePc
    have hle := hready.2.2
    refine ⟨t, hs.trans ht, fun hn => absurd hready hn, fun _ => ?_⟩
    simp only [hdecode, Except.ok.injEq, ne_eq]
    refine ⟨?jmp, ?beq, ?others⟩
    case jmp =>
      rintro off rfl
      rw [exec_jmp_pc ht]
      exact branchTarget_advance_toNat hle off
    case beq =>
      rintro rs1 rs2 off rfl
      rw [exec_beq_pc ht, advancePc_readReg, advancePc_readReg]
      refine ⟨fun heq => ?_, fun hne => ?_⟩
      · rw [if_pos heq]
        exact branchTarget_advance_toNat hle off
      · rw [if_neg hne]
        exact advance_toNat hle
    case others =>
      intro hjmp hbeq
      rw [exec_pc_of_no_transfer hjmp hbeq ht]
      exact advance_toNat hle
  case inr.inr.inr.inr =>
    have hno := decode_ne_ok_of_opcodeNamed?_none hnone
    exact ⟨_, hs, fun hn => absurd hready hn, fun _ => ⟨fun off h => absurd h (hno _),
      fun rs1 rs2 off h => absurd h (hno _), fun _ _ => advance_toNat hready.2.2⟩⟩

/-- A core just reset over the word of `ADDI R1, R0, 1`. -/
def addiAtResetCore : State := { State.reset with mem := [(0, 0x01), (2, 0x20), (3, 0x08)] }

/-- The address + 4 row of O28 on a concrete core. -/
theorem witness_nextPc_plain : ∃ t, step addiAtResetCore = .next t ∧ t.pc.toNat = 4 := by
  obtain ⟨t, ht, -, hready⟩ := nextPcOfEveryStep addiAtResetCore rfl
  obtain ⟨-, -, hplain⟩ := hready (by decide)
  have hdecode : decode (wordAt addiAtResetCore.mem addiAtResetCore.pc.toNat) = .ok (.addi 1 0 1) := by decide
  exact ⟨t, ht, hplain (by simp [hdecode]) (by simp [hdecode])⟩

/-- Settles O30, from what a step does to the running flag and from the instructions' not reading it. -/
theorem runningFlagRule : Obligations.RunningFlagRule := by
  refine ⟨rfl, fun _ _ => step_running_of_running, fun _ _ => step_halts_iff, fun i s b => ?_⟩
  obtain ⟨t, ht, ⟨⟨-, hcause, haddr, hop⟩, hv⟩ | ⟨-, hv⟩⟩ := exec_haltStateUnread i s
  · refine ⟨t, _, ht, hv b s.haltCause s.haltAddr s.haltOpcode, ?_⟩
    rw [← hcause, ← haddr, ← hop]
    rfl
  · exact ⟨t, t, ht, hv b s.haltCause s.haltAddr s.haltOpcode, rfl⟩

/-- Settles O34: the fetch reads the pc and memory only, and the fetched word's effect keeps the record or overwrites it whole. -/
theorem haltRecordIsNotReadWhileRunning : Obligations.HaltRecordIsNotReadWhileRunning := by
  intro s c a o hrun
  have hfetch : fetchWith Config.params (s.withHaltState s.running c a o) = fetchWith Config.params s := rfl
  suffices ∃ t v, step s = .next t ∧ step (s.withHaltState s.running c a o) = .next v ∧
      v.withHaltState v.running t.haltCause t.haltAddr t.haltOpcode = t ∧ (t.running = false → v = t) from this
  cases hf : fetchWith Config.params s with
  | fault f => exact absurd hf (fetchWith_ne_fault _ s f)
  | trap cause =>
    have htrap : ∀ u : State, u.running = true → fetchWith Config.params u = .trap cause →
        step u = .next (u.raiseFetchFault cause) := fun u hu h => by simp [step, cycleWith, hu, h]
    exact ⟨_, _, htrap s hrun hf, htrap _ hrun (hfetch.trans hf), rfl, fun _ => rfl⟩
  | word w =>
    obtain ⟨t, ht, hcases⟩ := executeWord_haltStateUnread w s.advancePc
    have hs : step s = .next t := (cycleWith_of_fetchWith hrun hf).trans ht
    have hs' : step (s.withHaltState s.running c a o) =
        executeWord Config.params w (s.advancePc.withHaltState s.running c a o) :=
      cycleWith_of_fetchWith hrun (hfetch.trans hf)
    obtain ⟨⟨hsame, -⟩, hv⟩ | ⟨-, hv⟩ := hcases
    · have hon : t.running = s.running := hsame
      refine ⟨t, _, hs, hs'.trans (hv ..), ?_, fun hoff => ?_⟩
      · rw [← hon]
        rfl
      · rw [hon, hrun] at hoff
        cases hoff
    · exact ⟨t, t, hs, hs'.trans (hv ..), rfl, fun _ => rfl⟩

/-- Settles O31: the reset values by definition, the image's bytes by what loading does, and the fetch because reset is ready to fetch. -/
theorem resetValues : Obligations.ResetValues :=
  ⟨reset_readReg, rfl, rfl, fun _ ha => readByte_inside ha, fun image _ ha => reset_loadImage_readByte image ha,
    fun image => fetch_ready (reset_loadImage_ready image)⟩

/-- Settles O32: each of the three writes register 0, and that write is discarded. -/
theorem destinationRegisterZeroOnlyAdvancesThePc : Obligations.DestinationRegisterZeroOnlyAdvancesThePc := by
  rintro s rs1 rs2 imm hready (hadd | haddi | hsub)
  · exact (step_of_decode hready hadd).trans (exec_add_rd_zero rs1 rs2 _)
  · exact (step_of_decode hready haddi).trans (exec_addi_rd_zero rs1 imm _)
  · exact (step_of_decode hready hsub).trans (exec_sub_rd_zero rs1 rs2 _)

end Sys2Proof.Machine
end

section
/-! PROOFS. Memory (20_memory.md): what an instruction and a step do to it and take from it, what zeroed memory executes as, and the image
that is loaded. -/

namespace Sys2Proof.Machine

/-! ### Memory as data (20_memory.md R35) -/

/-- The state over another memory. -/
def State.withMem (s : State) (m : Memory) : State := { s with mem := m }

theorem writeReg_withMem (s : State) (m : Memory) (i : RegIdx) (v : Word) :
    (s.withMem m).writeReg i v = (s.writeReg i v).withMem m := by
  unfold State.writeReg
  split <;> rfl

/-- No instruction reads memory: over another one it does the same. -/
theorem exec_withMem {i : Instr} {s t : State} (h : exec i s = .next t) (m : Memory) :
    exec i (s.withMem m) = .next (t.withMem m) := by
  cases i with
  | exit | liSlot | jmp off =>
    cases h
    rfl
  | beq rs1 rs2 off =>
    cases (exec_beq_eq_setPc rs1 rs2 off s).symm.trans h
    exact exec_beq_eq_setPc rs1 rs2 off (s.withMem m)
  | add | addi | sub =>
    cases h
    exact congrArg _ (writeReg_withMem ..)

/-! ### Zeroed memory (20_memory.md R41) -/

/-- Four zero bytes are the zero word, in either byte order. -/
theorem wordAt_eq_zero {m : Memory} {a : Nat} (h : ∀ k, k < 4 → m.lookup (a + k) = 0) : wordAt m a = 0 := by
  have h0 : m.lookup a = 0 := h 0 (by decide)
  rw [wordAt, h0, h 1 (by decide), h 2 (by decide), h 3 (by decide)]
  rfl

/-- EXIT's number is 0, so the zero word is an EXIT (30_encoding.md R56). -/
theorem decode_zero : decode 0 = .ok .exit := by decide

/-- EXIT after the advance (43_system.md R120): the record, and what stays. -/
theorem exec_exit_advancePc (s : State) :
    ∃ t, exec .exit s.advancePc = .next t ∧ HaltedWith t .exit s.pc 0 ∧ t.pc = s.pc + 4 ∧ SameRegs s t ∧ SameMemory s t :=
  ⟨_, rfl, ⟨rfl, rfl, advancePc_currentAddr s, rfl⟩, rfl, fun _ => rfl, fun _ => rfl⟩

/-! ### The loaded image (20_memory.md R36) -/

/-- An address of the memory holds the image's byte, if the image reaches it, and its old byte otherwise. -/
theorem lookup_loadImage {s : State} (hwf : s.mem.wf = true) (image : List Byte) {a : Nat} (ha : a < 65536) :
    (s.loadImage image).mem.lookup a = (image[a]?).getD (s.mem.lookup a) := by
  rw [loadImage_mem, lookup_memWriteBytes image hwf, if_pos ⟨Nat.zero_le a, ha⟩]
  rfl

/-- A word is laid out as four bytes, which read back as that word, in either byte order (20_memory.md R31). -/
theorem bytesOfWord_eq_four (o : ByteOrder) (w : InstrWord) :
    ∃ b0 b1 b2 b3, bytesOfWord o w = [b0, b1, b2, b3] ∧ wordOfBytes o b0 b1 b2 b3 = w := by
  cases o with
  | little => exact ⟨_, _, _, _, rfl, wordOfBytes_slices w⟩
  | big => exact ⟨_, _, _, _, rfl, (wordOfBytes_big ..).trans (wordOfBytes_slices w)⟩

@[simp] theorem bytesOfWord_length (o : ByteOrder) (w : InstrWord) : (bytesOfWord o w).length = 4 := by
  cases o <;> rfl

theorem imageOfWords_cons (o : ByteOrder) (w : InstrWord) (ws : List InstrWord) :
    imageOfWords o (w :: ws) = bytesOfWord o w ++ imageOfWords o ws :=
  List.flatMap_cons

/-- The bytes of word i of an image stand from index 4 i (30_encoding.md R73). -/
theorem imageOfWords_getElem? (o : ByteOrder) {ws : List InstrWord} {i : Nat} {w : InstrWord} (hw : ws[i]? = some w)
    {k : Nat} (hk : k < 4) : (imageOfWords o ws)[4 * i + k]? = (bytesOfWord o w)[k]? := by
  induction ws generalizing i with
  | nil => simp at hw
  | cons v rest ih =>
    rw [imageOfWords_cons]
    cases i with
    | zero =>
      obtain rfl : v = w := by simpa using hw
      rw [Nat.mul_zero, Nat.zero_add, List.getElem?_append_left (by simpa using hk)]
    | succ i =>
      have hidx : 4 * (i + 1) + k - (bytesOfWord o v).length = 4 * i + k := by
        rw [bytesOfWord_length]
        omega
      rw [List.getElem?_append_right (by rw [bytesOfWord_length]; omega), hidx]
      exact ih (by simpa using hw)

/-! ### The obligations -/

/-- Settles O29: the effects of the instructions are register writes, new pcs and halts, of which none takes anything from memory. -/
theorem memoryIsNeitherReadNorWrittenAsData : Obligations.MemoryIsNeitherReadNorWrittenAsData := by
  refine ⟨fun s t hstep => ?kept, fun i s m => ?unread⟩
  case kept =>
    have hmem : t.mem = s.mem := step_mem hstep
    exact ⟨hmem, fun a => by rw [hmem]⟩
  case unread =>
    obtain ⟨t, ht, -⟩ := exec_cases i s
    exact ⟨t, ht, exec_withMem ht m⟩

/-- Settles O33: the four bytes are the zero word, which decodes to EXIT. -/
theorem zeroedMemoryExecutesAsExit : Obligations.ZeroedMemoryExecutesAsExit := by
  intro s hready hzero
  have hdecode : decode (wordAt s.mem s.pc.toNat) = .ok .exit := by rw [wordAt_eq_zero hzero, decode_zero]
  rw [step_of_decode hready hdecode]
  exact exec_exit_advancePc s

/-- A core at the last word of memory, which is zero, below a byte that is not. -/
def zeroLastWordCore : State := { State.reset with pc := 65532, mem := [(65531, 0x14)] }

/-- O33 on a concrete core, at the highest address a fetch serves. -/
theorem witness_zeroed_last_word : ∃ t, step zeroLastWordCore = .next t ∧ HaltedWith t .exit 65532 0 ∧ t.pc = 65536 ∧
    SameRegs zeroLastWordCore t ∧ SameMemory zeroLastWordCore t :=
  zeroedMemoryExecutesAsExit zeroLastWordCore (by decide) (by decide)

/-- Settles O43, from what writing bytes from address 0 does; loading touches no other field. -/
theorem loadedImageBytesStandFromAddressZero : Obligations.LoadedImageBytesStandFromAddressZero := by
  intro s image hwf
  refine ⟨fun a ha => ?bytes, fun _ => rfl, rfl, rfl, rfl, rfl, rfl⟩
  case bytes => rw [readByte_inside ha, lookup_loadImage hwf image ha]

/-- O43 on a concrete core: a byte of the image over an old one, and an old one past the image's end. -/
theorem witness_loaded_image_bytes :
    (({ State.reset with mem := [(0, 7), (9, 1)] } : State).loadImage [0x2A, 0]).mem.readByte 0 = .ok 0x2A ∧
      (({ State.reset with mem := [(0, 7), (9, 1)] } : State).loadImage [0x2A, 0]).mem.readByte 9 = .ok 1 := by
  obtain ⟨hbytes, -⟩ := loadedImageBytesStandFromAddressZero { State.reset with mem := [(0, 7), (9, 1)] } [0x2A, 0] (by decide)
  exact ⟨hbytes 0 (by decide), hbytes 9 (by decide)⟩

/-- Settles O44: the image's bytes 4 i to 4 i + 3 are those of word i, they stand at these addresses, and a fetch there passes its checks. -/
theorem loadedWordsAreFetchedAtFourTimesTheirIndex : Obligations.LoadedWordsAreFetchedAtFourTimesTheirIndex := by
  intro p s ws i w hwf hw hfits hpc
  obtain ⟨b0, b1, b2, b3, hbytes, hword⟩ := bytesOfWord_eq_four p.byteOrder w
  have hbyte : ∀ k, k < 4 → (s.loadImage (imageOfWords p.byteOrder ws)).mem.lookup (4 * i + k) =
      ([b0, b1, b2, b3][k]?).getD (s.mem.lookup (4 * i + k)) := fun k hk => by
    rw [lookup_loadImage hwf _ (by omega), imageOfWords_getElem? p.byteOrder hw hk, hbytes]
  have hbyte0 : (s.loadImage (imageOfWords p.byteOrder ws)).mem.lookup (4 * i) = b0 := hbyte 0 (by decide)
  have hpc' : (s.loadImage (imageOfWords p.byteOrder ws)).pc.toNat = 4 * i := hpc
  rw [fetchWith_eq_word (by omega) (.inr (by omega)), hpc', hbyte0, hbyte 1 (by decide), hbyte 2 (by decide),
    hbyte 3 (by decide)]
  exact congrArg _ hword

/-- O44 on a concrete image in the order that is not the machine's, over memory that is not zeroed. -/
theorem witness_loaded_word_bigEndian :
    fetchWith { byteOrder := .big }
      (({ State.reset with pc := 4, mem := [(4, 0xFF), (9, 0x01)] } : State).loadImage (imageOfWords .big [0x08A0002A, 0x1400FFF4])) =
      .word 0x1400FFF4 :=
  loadedWordsAreFetchedAtFourTimesTheirIndex { byteOrder := .big } _ [0x08A0002A, 0x1400FFF4] 1 0x1400FFF4 (by decide) rfl
    (by decide) rfl

/-- Settles O38: every word of zeroed memory decodes to EXIT, which has no displacement. -/
theorem resetMeetsTheAlignedRunInvariant : Obligations.ResetMeetsTheAlignedRunInvariant := by
  refine ⟨fun a _ _ => ?displacements, rfl, fun hhalted => by cases hhalted⟩
  case displacements =>
    have hdecode : decode (wordAt State.reset.mem a) = .ok .exit := by
      rw [wordAt_eq_zero fun _ _ => rfl, decode_zero]
    simp [hdecode]

end Sys2Proof.Machine
end

section
/-! PROOFS. The encoding (30_encoding.md R54 to R63): the fields of a packed word, decode against encode in both directions, the ignored
bits, the opcode numbers that have no name, the encoders as formulas. -/

namespace Sys2Proof

/-! ### The decoder's lookup -/

/-- Decoding is the lookup of the opcode field, then the choice of the operands (30_encoding.md R59). -/
theorem decodeWith_of_opcodeNamed? {m : OpMap} {w : InstrWord} {n : Opcode}
    (h : opcodeNamed? m (decodeFields w).op = some n) : decodeWith m w = .ok (instrOfFields (decodeFields w) n) := by
  simp [decodeWith, h]

/-- A decoded word carries the number of the instruction's name, and the operands come from its fields. -/
theorem decodeWith_eq_ok {m : OpMap} {w : InstrWord} {i : Instr} (h : decodeWith m w = .ok i) :
    ∃ n, m.number n = (decodeFields w).op ∧ i = instrOfFields (decodeFields w) n := by
  obtain ⟨n, hn, hw⟩ | ⟨-, hw⟩ := decodeWith_cases m w
  · exact ⟨n, opcodeNamed?_some hn, Except.ok.inj (h.symm.trans hw)⟩
  · cases h.symm.trans hw

@[simp] theorem instrOfFields_opcode (f : Fields) (n : Opcode) : (instrOfFields f n).opcode = n := by
  cases n <;> rfl

theorem decodeWith_eq_error_iff (m : OpMap) (w : InstrWord) :
    decodeWith m w = .error (.illegalOpcode (decodeFields w).op) ↔ ∀ n, m.number n ≠ (decodeFields w).op := by
  rw [← opcodeNamed?_none]
  obtain ⟨n, hn, hw⟩ | ⟨hnone, hw⟩ := decodeWith_cases m w
  · simp [hn, hw]
  · simp [hnone, hw]

theorem decodeWith_isOk_iff (m : OpMap) (w : InstrWord) :
    (∃ i, decodeWith m w = .ok i) ↔ ∃ n, m.number n = (decodeFields w).op := by
  constructor
  · rintro ⟨i, hi⟩
    obtain ⟨n, hn, -⟩ := decodeWith_eq_ok hi
    exact ⟨n, hn⟩
  · rintro ⟨n, hn⟩
    obtain ⟨k, -, hw⟩ | ⟨hnone, -⟩ := decodeWith_cases m w
    · exact ⟨_, hw⟩
    · exact absurd hn (opcodeNamed?_none.1 hnone n)

/-- In a map the spec allows, a name's number decides the instruction (30_encoding.md R56, R59). -/
theorem decodeWith_of_number {m : OpMap} (hm : m.wellFormed = true) {w : InstrWord} {n : Opcode}
    (h : (decodeFields w).op = m.number n) : decodeWith m w = .ok (instrOfFields (decodeFields w) n) :=
  decodeWith_of_opcodeNamed? (by rw [h, opcodeNamed?_number hm])

/-- A name whose layout has no operands is decoded exactly from the words with its number. -/
theorem decodeWith_eq_ok_iff_of_noOperands {m : OpMap} (hm : m.wellFormed = true) (w : InstrWord) {i : Instr}
    (hi : ∀ f, instrOfFields f i.opcode = i) : decodeWith m w = .ok i ↔ (decodeFields w).op = m.number i.opcode := by
  constructor
  · intro h
    obtain ⟨n, hn, rfl⟩ := decodeWith_eq_ok h
    rw [instrOfFields_opcode, hn]
  · intro h
    rw [decodeWith_of_number hm h, hi]

/-! ### Encode, then decode -/

/-- An immediate in range is what its field stands for (30_encoding.md R54). -/
theorem sext64_imm16_of_inRange {n : Int} (h : immInRange n = true) : (sext64 (imm16 n)).toInt = n := by
  have hrange := (immInRange_iff n).1 h
  rw [sext64_imm16_toInt]
  omega

theorem encodeWith_op (m : OpMap) (i : Instr) : (decodeFields (encodeWith m i)).op = m.number i.opcode := by
  cases i with
  | exit => exact Laws.OpcodeField.exit m
  | add rd rs1 rs2 => exact Laws.OpcodeField.add rd rs1 rs2 m
  | addi rd rs1 imm => exact Laws.OpcodeField.addi rd rs1 imm m
  | liSlot => exact Laws.OpcodeField.liSlot m
  | beq rs1 rs2 off => exact Laws.OpcodeField.beq rs1 rs2 off m
  | jmp off => exact Laws.OpcodeField.jmp off m
  | sub rd rs1 rs2 => exact Laws.OpcodeField.sub rd rs1 rs2 m

/-- The operands of an encoded instruction stand in the fields its layout reads them from (30_encoding.md R51 to R54, R61). -/
theorem instrOfFields_encodeWith (m : OpMap) {i : Instr} (hi : i.wellFormed = true) :
    instrOfFields (decodeFields (encodeWith m i)) i.opcode = i := by
  cases i with
  | exit | liSlot => rfl
  | add | sub => simp [encodeWith, Instr.opcode, instrOfFields]
  | addi _ _ n | beq _ _ n | jmp n =>
    have hn : (sext64 (imm16 n)).toInt = n := sext64_imm16_of_inRange hi
    simp [encodeWith, Instr.opcode, instrOfFields, encodeB_eq_encodeI, hn]

/-- Settles O1: the opcode field names the instruction in an allowed map, and its operands stand in the fields of its layout. -/
theorem decodeOfEncodeIsTheInstruction : Obligations.DecodeOfEncodeIsTheInstruction := by
  intro m i hm hi
  rw [decodeWith_of_number hm (encodeWith_op m i), instrOfFields_encodeWith m hi]

/-- O1 on a map other than the machine's, at the end of the range of an offset. -/
theorem witness_decodeOfEncode_otherMap :
    decodeWith { beq := 63, sub := 33 } (encodeWith { beq := 63, sub := 33 } (.beq 31 0 (-32768))) = .ok (.beq 31 0 (-32768)) :=
  decodeOfEncodeIsTheInstruction _ _ (by decide) (by decide)

/-- A register number's field is its low 5 bits (30_encoding.md R55). -/
theorem regField_ofNat_toNat (n : Nat) : (regField n).toNat = n &&& 0x1F := by
  rw [regField, BitVec.toNat_ofNat, ← Nat.and_two_pow_sub_one_eq_mod]

/-- Settles O2, from the fields of a packed word; the B-Type word is the I-Type word with other names. -/
theorem packedFieldsComeBackMasked : Obligations.PackedFieldsComeBackMasked := by
  intro op a b c n
  simp [encodeB_eq_encodeI, sext64_imm16_toInt, regField_ofNat_toNat]

/-! ### Decode, then encode -/

/-- Clearing the low `k` bits, as a number. -/
theorem toNat_and_allOnes_shiftLeft (w : InstrWord) (k : Nat) :
    (w &&& BitVec.allOnes 32 <<< k).toNat = w.toNat / 2 ^ k * 2 ^ k := by
  have hle : w.toNat / 2 ^ k * 2 ^ k < 2 ^ 32 := (Nat.div_mul_le_self _ _).trans_lt w.isLt
  rw [← BitVec.shiftLeft_ushiftRight, BitVec.toNat_shiftLeft, BitVec.toNat_ushiftRight, Nat.shiftRight_eq_div_pow,
    Nat.shiftLeft_eq, Nat.mod_eq_of_lt hle]

/-- Putting a value into bits that are zero adds it. -/
theorem toNat_or_of_low_zero {x y : InstrWord} (k : Nat) (hx : x.toNat % 2 ^ k = 0) (hy : y.toNat < 2 ^ k) :
    (x ||| y).toNat = x.toNat + y.toNat := by
  obtain ⟨a, ha⟩ := Nat.dvd_of_mod_eq_zero hx
  rw [BitVec.toNat_or, ha, Nat.two_pow_add_eq_or_of_lt hy]

/-- The bits of the opcode alone. -/
theorem toNat_and_opcodeMask (w : InstrWord) : (w &&& 0xFC000000).toNat = w.toNat / 2 ^ 26 * 2 ^ 26 :=
  toNat_and_allOnes_shiftLeft w 26

/-- The bits of the R-Type layout: all above the lowest 11. -/
theorem toNat_and_rTypeMask (w : InstrWord) : (w &&& 0xFFFFF800).toNat = w.toNat / 2 ^ 11 * 2 ^ 11 :=
  toNat_and_allOnes_shiftLeft w 11

/-- The low 16 bits. -/
theorem toNat_and_immMask (w : InstrWord) : (w &&& 0xFFFF).toNat = w.toNat % 2 ^ 16 :=
  Nat.and_two_pow_sub_one_eq_mod w.toNat 16

/-- The bits of JMP's layout: the opcode and the immediate. -/
theorem toNat_and_jmpMask (w : InstrWord) :
    (w &&& 0xFC00FFFF).toNat = w.toNat / 2 ^ 26 * 2 ^ 26 + w.toNat % 2 ^ 16 := by
  have hmask : (0xFC00FFFF : InstrWord) = 0xFC000000 ||| 0xFFFF := rfl
  rw [hmask, BitVec.and_or_distrib_left, toNat_or_of_low_zero 16, toNat_and_opcodeMask, toNat_and_immMask]
  · rw [toNat_and_opcodeMask]
    omega
  · rw [toNat_and_immMask]
    omega

theorem and_allOnesMask (w : InstrWord) : w &&& 0xFFFFFFFF = w := BitVec.and_allOnes

/-- The decoder's immediate, packed again, is the low 16 bits (30_encoding.md R54). -/
theorem simm_toInt_emod (w : InstrWord) : (decodeFields w).simm.toInt % 65536 = (w.toNat % 65536 : Nat) := by
  have hslice : (w.extractLsb' 0 16).toNat = w.toNat % 65536 := by simp
  have htoInt : (decodeFields w).simm.toInt = (w.extractLsb' 0 16).toInt :=
    BitVec.toInt_signExtend_of_le (by decide)
  rw [htoInt, BitVec.toInt_eq_toNat_bmod, hslice, Int.bmod_def]
  split <;> omega

/-- The immediate of every decoded word fits its field. -/
theorem immInRange_simm (w : InstrWord) : immInRange (decodeFields w).simm.toInt = true := by
  have htoInt : (decodeFields w).simm.toInt = (w.extractLsb' 0 16).toInt :=
    BitVec.toInt_signExtend_of_le (by decide)
  have hlo := BitVec.le_toInt (w.extractLsb' 0 16)
  have hhi := BitVec.toInt_lt (x := w.extractLsb' 0 16)
  rw [immInRange_iff, htoInt]
  omega

/-- Every answer of the decoder is well formed. -/
theorem instrOfFields_wellFormed (w : InstrWord) (n : Opcode) :
    (instrOfFields (decodeFields w) n).wellFormed = true := by
  cases n with
  | exit | add | li | sub => rfl
  | addi | beq | jmp => exact immInRange_simm w

/-- Packing what the decoder took from a word gives back the bits its layout uses (30_encoding.md R58, R60). -/
theorem encodeWith_instrOfFields {m : OpMap} {w : InstrWord} {n : Opcode} (h : m.number n = (decodeFields w).op) :
    encodeWith m (instrOfFields (decodeFields w) n) = w &&& usedBits n := by
  obtain ⟨hop, hfa, hfb, hfc⟩ := decodeFields_toNat w
  have himm := simm_toInt_emod w
  have hw := w.isLt
  apply BitVec.eq_of_toNat_eq
  cases n with
  | exit | li =>
    simp only [instrOfFields, encodeWith, usedBits, h, encodeR_toNat, toNat_and_opcodeMask, hop]
    omega
  | add | sub =>
    simp only [instrOfFields, encodeWith, usedBits, h, encodeR_toNat, toNat_and_rTypeMask, hop, hfa, hfb, hfc]
    omega
  | addi | beq =>
    simp only [instrOfFields, encodeWith, usedBits, h, encodeB_eq_encodeI, encodeI_toNat, and_allOnesMask, hop, hfa, hfb, himm]
    omega
  | jmp =>
    simp only [instrOfFields, encodeWith, usedBits, h, encodeB_toNat, toNat_and_jmpMask, hop, himm]
    omega

/-- Settles O3: a decoded word is the fields of its layout, and packing these gives its used bits. -/
theorem reencodingClearsOnlyIgnoredBits : Obligations.ReencodingClearsOnlyIgnoredBits := by
  intro m w i hdecode
  obtain ⟨n, hn, rfl⟩ := decodeWith_eq_ok hdecode
  rw [instrOfFields_opcode]
  exact ⟨encodeWith_instrOfFields hn, instrOfFields_wellFormed w n⟩

/-- O3 on a word with junk in its register fields. -/
theorem witness_reencoding_jmp : encodeWith {} (.jmp (-4)) = 0x17FFFFFC &&& usedBits .jmp :=
  (reencodingClearsOnlyIgnoredBits {} 0x17FFFFFC (.jmp (-4)) (by decide)).1

/-- Every layout uses the opcode bits (30_encoding.md R50). -/
theorem and_usedBits_op (w : InstrWord) (n : Opcode) : (decodeFields (w &&& usedBits n)).op = (decodeFields w).op := by
  have hmask : (usedBits n).extractLsb' 26 6 = BitVec.allOnes 6 := by cases n <;> rfl
  simp only [decodeFields, BitVec.extractLsb'_and, hmask, BitVec.and_allOnes]

/-- The instruction in a word depends on its used bits alone: they are its encoding, and the encoding decodes to it (30_encoding.md R58). -/
theorem instrOfFields_and_usedBits {m : OpMap} {w : InstrWord} {n : Opcode} (h : m.number n = (decodeFields w).op) :
    instrOfFields (decodeFields (w &&& usedBits n)) n = instrOfFields (decodeFields w) n := by
  have hback := instrOfFields_encodeWith m (instrOfFields_wellFormed w n)
  rwa [encodeWith_instrOfFields h, instrOfFields_opcode] at hback

/-- Settles O4: the two words have one opcode, which every layout uses, and under its name one instruction. -/
theorem ignoredBitsDoNotChangeTheInstruction : Obligations.IgnoredBitsDoNotChangeTheInstruction := by
  intro m w v n (hname : opcodeNamed? m (decodeFields w).op = some n) hbits
  have hop : (decodeFields v).op = (decodeFields w).op := by rw [← and_usedBits_op v n, ← hbits, and_usedBits_op]
  have hnumber := opcodeNamed?_some hname
  rw [decodeWith_of_opcodeNamed? hname, decodeWith_of_opcodeNamed? (hop ▸ hname), ← instrOfFields_and_usedBits hnumber,
    ← instrOfFields_and_usedBits (hnumber.trans hop.symm), hbits]

/-! ### The numbers that have no name -/

/-- The opcode field of a word as a number: nothing stands above it. -/
theorem decodeFields_op_toNat (w : InstrWord) : (decodeFields w).op.toNat = w.toNat / 2 ^ 26 := by
  have := w.isLt
  rw [(decodeFields_toNat w).1]
  omega

/-- The default numbers are 0 to 6 (decision D1). -/
theorem default_number_ne_iff (k : OpNum) : (∀ n, Config.params.opMap.number n ≠ k) ↔ 7 ≤ k.toNat := by
  constructor
  · intro h
    by_contra! hlt
    have hnumbers : k ∈ [0, 1, 2, 3, 4, 5, 6] := by
      simp only [List.mem_cons, List.not_mem_nil, or_false]
      bv_omega
    simp only [List.mem_cons, List.not_mem_nil, or_false] at hnumbers
    obtain rfl | rfl | rfl | rfl | rfl | rfl | rfl := hnumbers
    · exact h .exit rfl
    · exact h .add rfl
    · exact h .addi rfl
    · exact h .li rfl
    · exact h .beq rfl
    · exact h .jmp rfl
    · exact h .sub rfl
  · rintro h n rfl
    cases n <;> exact absurd h (by decide)

/-- Settles O5, from the two sides of the lookup; under the default map the field is a number below 7 or has no name, and EXIT and the LI_SLOT
word have no operands. -/
theorem decoderRejectsExactlyTheUnknownOpcodes : Obligations.DecoderRejectsExactlyTheUnknownOpcodes := by
  have hdefault : Config.params.opMap.wellFormed = true := by decide
  refine ⟨decodeWith_eq_error_iff, decodeWith_isOk_iff, fun w => ?rejected, fun w => ?liSlot, fun w => ?exit⟩
  case rejected =>
    rw [← decodeFields_op_toNat, ← default_number_ne_iff]
    exact decodeWith_eq_error_iff _ w
  case liSlot =>
    rw [← decodeFields_op_toNat]
    exact (decodeWith_eq_ok_iff_of_noOperands (i := .liSlot) hdefault w fun _ => rfl).trans BitVec.toNat_inj.symm
  case exit =>
    have hlow : (decodeFields w).op.toNat = 0 ↔ w.toNat < 2 ^ 26 := by
      rw [decodeFields_op_toNat]
      omega
    rw [← hlow]
    exact (decodeWith_eq_ok_iff_of_noOperands (i := .exit) hdefault w fun _ => rfl).trans BitVec.toNat_inj.symm

/-! ### The encoders as formulas, the decoder's outputs as numbers -/

/-- The opcode shifted to its place (30_encoding.md R60). -/
theorem toNat_opcode_shiftLeft (op : OpNum) : (op.setWidth 32 <<< 26).toNat = op.toNat * 2 ^ 26 := by
  have := op.isLt
  rw [BitVec.toNat_shiftLeft, BitVec.toNat_setWidth, Nat.shiftLeft_eq]
  omega

/-- A masked register number shifted to its place (30_encoding.md R60). -/
theorem toNat_register_shiftLeft (r : Nat) {k : Nat} (hk : k ≤ 27) :
    (BitVec.ofNat 32 (r &&& 0x1F) <<< k).toNat = r % 32 * 2 ^ k := by
  have hmask : r &&& 0x1F = r % 32 := Nat.and_two_pow_sub_one_eq_mod r 5
  have hlt : r % 32 * 2 ^ k < 2 ^ 32 := calc
    r % 32 * 2 ^ k < 2 ^ 5 * 2 ^ k := Nat.mul_lt_mul_of_pos_right (by omega) (by positivity)
    _ = 2 ^ (5 + k) := (pow_add ..).symm
    _ ≤ 2 ^ 32 := Nat.pow_le_pow_right (by decide) (by omega)
  rw [BitVec.toNat_shiftLeft, BitVec.toNat_ofNat, Nat.shiftLeft_eq, hmask, Nat.mod_eq_of_lt (a := r % 32) (by omega),
    Nat.mod_eq_of_lt hlt]

/-- The low 16 bits of an immediate's pattern (30_encoding.md R60). -/
theorem toNat_imm_mask (n : Int) : (BitVec.ofInt 32 n &&& 0xFFFF).toNat = (n % 65536).toNat := by
  rw [toNat_and_immMask, BitVec.toNat_ofInt]
  omega

/-- The formula of the opcode and the first two register fields, common to the three encoders, as a number. -/
theorem toNat_opcode_or_registers (op : OpNum) (a b : Nat) :
    ((op.setWidth 32 <<< 26) ||| (BitVec.ofNat 32 (a &&& 0x1F) <<< 21) ||| (BitVec.ofNat 32 (b &&& 0x1F) <<< 16)).toNat =
      op.toNat * 2 ^ 26 + a % 32 * 2 ^ 21 + b % 32 * 2 ^ 16 := by
  have hop := toNat_opcode_shiftLeft op
  have ha := toNat_register_shiftLeft a (k := 21) (by decide)
  have hb := toNat_register_shiftLeft b (k := 16) (by decide)
  have hopa := toNat_or_of_low_zero (x := op.setWidth 32 <<< 26) (y := BitVec.ofNat 32 (a &&& 0x1F) <<< 21) 26 (by omega) (by omega)
  rw [toNat_or_of_low_zero 21 (by omega) (by omega), hopa, hop, ha, hb]

theorem encodeR_eq_formula (op : OpNum) (rd rs1 rs2 : Nat) :
    encodeR op rd rs1 rs2 = (op.setWidth 32 <<< 26) ||| (BitVec.ofNat 32 (rd &&& 0x1F) <<< 21) |||
      (BitVec.ofNat 32 (rs1 &&& 0x1F) <<< 16) ||| (BitVec.ofNat 32 (rs2 &&& 0x1F) <<< 11) := by
  have hhigh := toNat_opcode_or_registers op rd rs1
  have hc := toNat_register_shiftLeft rs2 (k := 11) (by decide)
  apply BitVec.eq_of_toNat_eq
  rw [encodeR_toNat, toNat_or_of_low_zero 16 (by omega) (by omega), hhigh, hc]

theorem encodeI_eq_formula (op : OpNum) (rd rs1 : Nat) (imm : Int) :
    encodeI op rd rs1 imm = (op.setWidth 32 <<< 26) ||| (BitVec.ofNat 32 (rd &&& 0x1F) <<< 21) |||
      (BitVec.ofNat 32 (rs1 &&& 0x1F) <<< 16) ||| (BitVec.ofInt 32 imm &&& 0xFFFF) := by
  have hhigh := toNat_opcode_or_registers op rd rs1
  have himm := toNat_imm_mask imm
  apply BitVec.eq_of_toNat_eq
  rw [encodeI_toNat, toNat_or_of_low_zero 16 (by omega) (by omega), hhigh, himm]

/-- Settles O6: on both sides the fields stand in disjoint bits, so they are one sum. -/
theorem encodersAreTheShiftMaskOrFormulas : Obligations.EncodersAreTheShiftMaskOrFormulas := fun op rd rs1 rs2 imm =>
  ⟨encodeR_eq_formula op rd rs1 rs2, encodeI_eq_formula op rd rs1 imm, encodeI_eq_formula op rs1 rs2 imm⟩

/-- Sign extension of 16 bits as a number: the upper 48 bits are ones from 32768 up (00_scope.md R7). -/
theorem sext64_toNat (v : Imm16) :
    (sext64 v).toNat = if v.toNat < 32768 then v.toNat else v.toNat + 2 ^ 64 - 2 ^ 16 := by
  have hv := v.isLt
  rw [sext64, BitVec.toNat_signExtend, BitVec.toNat_setWidth, BitVec.msb_eq_decide]
  simp only [decide_eq_true_eq]
  split_ifs <;> omega

/-- Settles O7: the slices as numbers, and the sign extension of the lowest. -/
theorem decoderSlicesEveryWord : Obligations.DecoderSlicesEveryWord := by
  intro w
  obtain ⟨hop, hfa, hfb, hfc⟩ := decodeFields_toNat w
  have himm : (w.extractLsb' 0 16).toNat = w.toNat % 65536 := by simp
  refine ⟨hop, hfa, hfb, hfc, ?_⟩
  rw [← himm]
  exact sext64_toNat _

/-! ### LI is ADDI from register 0 (30_encoding.md R67) -/

/-- An I-Type word with ADDI's number is ADDI on the masked operands, for any numbers. -/
theorem decodeWith_encodeI_addi {m : OpMap} (hm : m.wellFormed = true) (rd rs1 : Nat) (imm : Int) :
    decodeWith m (encodeI (m.number .addi) rd rs1 imm) =
      .ok (.addi (regField rd) (regField rs1) (sext64 (imm16 imm)).toInt) := by
  rw [decodeWith_of_number hm (encodeI_op ..)]
  simp [instrOfFields]

/-- ADDI from register 0 loads its immediate (41_arithmetic.md R103). -/
theorem exec_addi_rs1_zero (rd : RegIdx) (v : Word) (s : Machine.State) :
    Machine.exec (.addi rd 0 v.toInt) s = .next (s.writeReg rd v) := by
  simp [Machine.exec, Machine.execAddi, Machine.aluAdd]

/-- Settles O48: the word of LI is ADDI's with source 0, whose sum with register 0 is the immediate. -/
theorem liIsAddiFromRegisterZero : Obligations.LiIsAddiFromRegisterZero := by
  intro m rd imm s hm
  refine ⟨rfl, _, _, decodeWith_encodeI_addi hm rd 0 imm, ⟨_, rfl⟩, exec_addi_rs1_zero (regField rd) (sext64 (imm16 imm)) s,
    fun j => ?written, fun hrange => sext64_imm16_of_inRange ((immInRange_iff imm).2 hrange), Machine.writeReg_pc ..,
    fun _ => ?memory, Machine.sameHaltState_writeReg ..⟩
  case written =>
    rw [Machine.readReg_writeReg]
    refine if_congr (and_congr_right fun hj => ?_) rfl rfl
    rw [hj]
    rfl
  case memory => rw [Machine.writeReg_mem]

end Sys2Proof
end

section
/-! PROOFS. The assembler (30_encoding.md R64 to R72): the tokens of a text, the mnemonic in any case, operand lists that are malformed or
have surplus operands. -/

namespace Sys2Proof.Machine

/-! ### Tokens -/

theorem closeToken_eq_append (cur : List Char) (rest : List (List Char)) :
    closeToken cur rest = closeToken cur [] ++ rest := by
  unfold closeToken
  split <;> rfl

/-- A separator ends the token being read, and what follows it is read afresh (R64). -/
theorem tokensFrom_append_separator {c : Char} (hc : isSeparator c = true) (cur l r : List Char) :
    tokensFrom cur (l ++ c :: r) = tokensFrom cur l ++ tokens r := by
  induction l generalizing cur with
  | nil => simp [tokensFrom, hc, tokens, ← closeToken_eq_append]
  | cons d ds ih =>
    by_cases hd : isSeparator d = true
    · simp only [List.cons_append, tokensFrom, hd, if_true]
      rw [closeToken_eq_append, ih, ← List.append_assoc, ← closeToken_eq_append]
    · simp only [List.cons_append, tokensFrom, hd]
      exact ih (d :: cur)

/-- Separators at the front of a text give no token (R64). -/
theorem tokens_append_of_separators {p : List Char} (hp : ∀ c ∈ p, c = ',' ∨ c = ' ') (r : List Char) :
    tokens (p ++ r) = tokens r := by
  induction p with
  | nil => rfl
  | cons c cs ih =>
    obtain ⟨hc, hcs⟩ := List.forall_mem_cons.1 hp
    rw [← ih hcs]
    exact tokensFrom_append_separator ((isSeparator_iff c).2 hc) [] [] (cs ++ r)

/-- A run of separators cuts a text in two (R64). -/
theorem tokens_append_separatorRun {p : List Char} (hp : SeparatorRun p) (l r : List Char) :
    tokens (l ++ p ++ r) = tokens l ++ tokens r := by
  obtain ⟨hne, hsep⟩ := hp
  cases p with
  | nil => exact absurd rfl hne
  | cons c cs =>
    obtain ⟨hc, hcs⟩ := List.forall_mem_cons.1 hsep
    rw [List.append_assoc, ← tokens_append_of_separators hcs r]
    exact tokensFrom_append_separator ((isSeparator_iff c).2 hc) [] l (cs ++ r)

/-- A text with no separator is one token (R64). -/
theorem tokens_of_noSeparator {t : List Char} (ht : NoSeparator t) : tokens t = if t = [] then [] else [t] := by
  have hread : tokens t = closeToken t.reverse [] := by
    simpa [tokens, tokensFrom] using tokensFrom_append ht [] []
  rw [hread]
  simp [closeToken]

/-- A text that is empty or starts with a separator. -/
abbrev StartsSeparated (r : List Char) : Prop := r = [] ∨ ∃ c k, r = c :: k ∧ (c = ',' ∨ c = ' ')

/-- What starts with a separator is read apart from the text before it. -/
theorem tokens_append_of_startsSeparated {r : List Char} (hr : StartsSeparated r) (t : List Char) :
    tokens (t ++ r) = tokens t ++ tokens r := by
  obtain rfl | ⟨c, k, rfl, hc⟩ := hr
  · simp [tokens, tokensFrom, closeToken]
  · have hc' := (isSeparator_iff c).2 hc
    have hk : tokens (c :: k) = tokens k := tokensFrom_append_separator hc' [] [] k
    rw [hk]
    exact tokensFrom_append_separator hc' [] t k

/-- The first token of a line that has one: separators or nothing before it, a separator or nothing after it. -/
theorem tokens_first {l t r : List Char} (hl : l = [] ∨ SeparatorRun l) (ht : NoSeparator t) (hne : t ≠ []) (hr : StartsSeparated r) :
    tokens (l ++ t ++ r) = t :: tokens r := by
  have hblank : ∀ c ∈ l, c = ',' ∨ c = ' ' := by
    obtain rfl | ⟨-, hsep⟩ := hl
    · simp
    · exact hsep
  rw [List.append_assoc, tokens_append_of_separators hblank, tokens_append_of_startsSeparated hr, tokens_of_noSeparator ht,
    if_neg hne]
  rfl

/-! ### The case of a mnemonic -/

/-- Upper case takes a small letter to the capital with the code 32 below. -/
theorem upperChar_of_lower {c d : Char} (hc : 97 ≤ c.toNat ∧ c.toNat ≤ 122) (hd : d.toNat + 32 = c.toNat) :
    upperChar c = d := by
  have hcode : c.toNat - 32 = d.toNat := by omega
  rw [upperChar, if_pos hc, hcode, Char.ofNat_toNat]

/-- Upper case leaves all but the small letters. -/
theorem upperChar_of_not_lower {c : Char} (hc : ¬ (97 ≤ c.toNat ∧ c.toNat ≤ 122)) : upperChar c = c :=
  if_neg hc

theorem CaseVariant.upperChar_eq {c d : Char} (h : CaseVariant c d) : upperChar c = upperChar d := by
  obtain rfl | ⟨hlo, hhi, hcode⟩ | ⟨hlo, hhi, hcode⟩ := h
  · rfl
  · rw [upperChar_of_lower ⟨hlo, hhi⟩ hcode, upperChar_of_not_lower (by omega)]
  · rw [upperChar_of_lower ⟨hlo, hhi⟩ hcode, upperChar_of_not_lower (by omega)]

/-- Commas and spaces are no letters, so they have no case. -/
theorem CaseVariant.not_separator {c d : Char} (h : CaseVariant c d) (hc : c ≠ ',' ∧ c ≠ ' ') : d ≠ ',' ∧ d ≠ ' ' := by
  obtain rfl | hcodes := h
  · exact hc
  · constructor
    all_goals
      rintro rfl
      simp at hcodes
      omega

theorem CaseVariant.symm {c d : Char} (h : CaseVariant c d) : CaseVariant d c := by
  obtain rfl | hlow | hlow := h
  · exact .inl rfl
  · exact .inr (.inr hlow)
  · exact .inr (.inl hlow)

theorem map_upperChar_eq {t u : List Char} (h : List.Forall₂ CaseVariant t u) : t.map upperChar = u.map upperChar := by
  induction h with
  | nil => rfl
  | cons hcd _ ih => simp [hcd.upperChar_eq, ih]

theorem noSeparator_of_caseVariant {t u : List Char} (h : List.Forall₂ CaseVariant t u) (ht : NoSeparator t) : NoSeparator u := by
  induction h with
  | nil => exact ht
  | cons hcd _ ih =>
    obtain ⟨hc, hcs⟩ := List.forall_mem_cons.1 ht
    exact List.forall_mem_cons.2 ⟨hcd.not_separator hc, ih hcs⟩

/-! ### From a line to its word -/

/-- A line's word is that of its first token in upper case and the tokens after it (R64). -/
theorem assembleLine_of_tokens {line t : List Char} {ops : List (List Char)} (h : tokens line = t :: ops) (m : OpMap) :
    assembleLine m line = assembleTokens m (t.map upperChar :: ops) := by
  simp [assembleLine, normalTokens, h]

theorem parseTokens_exit (ops : List (List Char)) : parseTokens (['E', 'X', 'I', 'T'] :: ops) = .stmt .exit := rfl

theorem parseTokens_li (ops : List (List Char)) : parseTokens (['L', 'I'] :: ops) = parseLi ops := rfl

theorem parseTokens_sub (ops : List (List Char)) : parseTokens (['S', 'U', 'B'] :: ops) = parseSub ops := rfl

theorem parseTokens_beq (ops : List (List Char)) : parseTokens (['B', 'E', 'Q'] :: ops) = parseBeq ops := rfl

theorem parseTokens_jmp (ops : List (List Char)) : parseTokens (['J', 'M', 'P'] :: ops) = parseJmp ops := rfl

/-- A mnemonic the assembler does not have (R71, R72). -/
theorem parseTokens_of_unknown {name : List Char}
    (h : name ∉ [['E', 'X', 'I', 'T'], ['L', 'I'], ['S', 'U', 'B'], ['B', 'E', 'Q'], ['J', 'M', 'P']]) (ops : List (List Char)) :
    parseTokens (name :: ops) = .malformed := by
  simp only [List.mem_cons, List.not_mem_nil, or_false, not_or] at h
  obtain ⟨hexit, hli, hsub, hbeq, hjmp⟩ := h
  simp [parseTokens, hexit, hli, hsub, hbeq, hjmp]

theorem assembleTokens_of_malformed {toks : List (List Char)} (h : parseTokens toks = .malformed) (m : OpMap) :
    assembleTokens m toks = 0 := by
  simp [assembleTokens, h]

/-- The word of a line whose due operands make a statement: with no further operand the statement's, otherwise that or the zero word (log 14). -/
theorem assembleTokens_of_parsedWith {toks rest : List (List Char)} {s : AsmStmt} (h : parseTokens toks = parsedWith rest (some s))
    (m : OpMap) :
    (assembleTokens m toks = encodeStmt m s ∨ assembleTokens m toks = 0) ∧
      (rest = [] → assembleTokens m toks = encodeStmt m s) := by
  cases rest with
  | nil =>
    have hword : assembleTokens m toks = encodeStmt m s := by simp [assembleTokens, h, parsedWith]
    exact ⟨.inl hword, fun _ => hword⟩
  | cons =>
    have hword : assembleTokens m toks = if Config.surplusOperandsIgnored toks then encodeStmt m s else 0 := by
      simp [assembleTokens, h, parsedWith]
    refine ⟨?_, by simp⟩
    rw [hword]
    split
    · exact .inl rfl
    · exact .inr rfl

/-! ### Operand lists that are malformed: a due operand is missing or has no number (R72) -/

/-- One of the first `k` operands is missing or has no digit. -/
def DueOperandMissing (k : Nat) (ops : List (List Char)) : Prop := ops.length < k ∨ ∃ a ∈ ops.take k, NoDigit a

theorem bind_map_eq_none {α β γ : Type} {x : Option α} {y : Option β} (f : α → β → γ) (h : x = none ∨ y = none) :
    (x.bind fun a => y.map fun b => f a b) = none := by
  obtain rfl | rfl := h
  · rfl
  · cases x <;> rfl

theorem bind_bind_map_eq_none {α β γ δ : Type} {x : Option α} {y : Option β} {z : Option γ} (f : α → β → γ → δ)
    (h : x = none ∨ y = none ∨ z = none) : (x.bind fun a => y.bind fun b => z.map fun c => f a b c) = none := by
  obtain rfl | h := h
  · rfl
  · cases x with
    | none => rfl
    | some a => exact bind_map_eq_none (f a) h

theorem noDigit_of_dueOperandMissing {a b c : List Char} {rest : List (List Char)} (h : DueOperandMissing 3 (a :: b :: c :: rest)) :
    NoDigit a ∨ NoDigit b ∨ NoDigit c := by
  obtain hlen | hdigit := h
  · simp only [List.length_cons] at hlen
    omega
  · simpa using hdigit

theorem parseLi_of_missing {ops : List (List Char)} (h : DueOperandMissing 2 ops) : parseLi ops = .malformed := by
  match ops, h with
  | [], _ | [_], _ => rfl
  | a :: b :: rest, h =>
    have hnum : NoDigit a ∨ NoDigit b := by simpa [DueOperandMissing] using h
    rw [parseLi, bind_map_eq_none _ (hnum.imp parseReg_eq_none parseImm_eq_none), parsedWith]

theorem parseSub_of_missing {ops : List (List Char)} (h : DueOperandMissing 3 ops) : parseSub ops = .malformed := by
  match ops, h with
  | [], _ | [_], _ | [_, _], _ => rfl
  | a :: b :: c :: rest, h =>
    have hnum := noDigit_of_dueOperandMissing h
    rw [parseSub, bind_bind_map_eq_none _ (hnum.imp parseReg_eq_none (.imp parseReg_eq_none parseReg_eq_none)), parsedWith]

theorem parseBeq_of_missing {ops : List (List Char)} (h : DueOperandMissing 3 ops) : parseBeq ops = .malformed := by
  match ops, h with
  | [], _ | [_], _ | [_, _], _ => rfl
  | a :: b :: c :: rest, h =>
    have hnum := noDigit_of_dueOperandMissing h
    rw [parseBeq, bind_bind_map_eq_none _ (hnum.imp parseReg_eq_none (.imp parseReg_eq_none parseImm_eq_none)), parsedWith]

theorem parseJmp_of_missing {ops : List (List Char)} (h : DueOperandMissing 1 ops) : parseJmp ops = .malformed := by
  match ops, h with
  | [], _ => rfl
  | a :: rest, h =>
    have hnum : NoDigit a := by simpa [DueOperandMissing] using h
    rw [parseJmp, parseImm_eq_none hnum, Option.map_none, parsedWith]

/-- A line with a known mnemonic and a due operand missing is the zero word (R72). -/
theorem assembleLine_of_missing {line t : List Char} {ops : List (List Char)} (htok : tokens line = t :: ops) (m : OpMap) :
    (t.map upperChar = ['L', 'I'] → DueOperandMissing 2 ops → assembleLine m line = 0) ∧
      (t.map upperChar = ['S', 'U', 'B'] ∨ t.map upperChar = ['B', 'E', 'Q'] → DueOperandMissing 3 ops →
        assembleLine m line = 0) ∧
      (t.map upperChar = ['J', 'M', 'P'] → DueOperandMissing 1 ops → assembleLine m line = 0) := by
  rw [assembleLine_of_tokens htok]
  refine ⟨fun hli hmissing => ?li, fun hname hmissing => ?subOrBeq, fun hjmp hmissing => ?jmp⟩
  case li =>
    rw [hli]
    exact assembleTokens_of_malformed ((parseTokens_li ops).trans (parseLi_of_missing hmissing)) m
  case subOrBeq =>
    obtain hsub | hbeq := hname
    · rw [hsub]
      exact assembleTokens_of_malformed ((parseTokens_sub ops).trans (parseSub_of_missing hmissing)) m
    · rw [hbeq]
      exact assembleTokens_of_malformed ((parseTokens_beq ops).trans (parseBeq_of_missing hmissing)) m
  case jmp =>
    rw [hjmp]
    exact assembleTokens_of_malformed ((parseTokens_jmp ops).trans (parseJmp_of_missing hmissing)) m

/-- EXIT's word is the zero word in a map the spec allows, which sends EXIT to 0 (R56, R66). -/
theorem encodeStmt_exit_eq_zero {m : OpMap} (hm : m.wellFormed = true) : encodeStmt m .exit = 0 := by
  have hexit : m.exit = 0 := by
    rw [OpMap.wellFormed, Bool.and_eq_true, decide_eq_true_eq] at hm
    obtain ⟨hzero, -⟩ := hm
    exact hzero
  rw [encodeStmt, OpMap.number, hexit]
  rfl

/-! ### Operand lists whose due operands have numbers (R67 to R70) -/

theorem parseLi_of_numbers {a b : List Char} {rd : Nat} {imm : Int} (ha : parseReg a = some rd) (hb : parseImm b = some imm)
    (rest : List (List Char)) : parseLi (a :: b :: rest) = parsedWith rest (some (.li rd imm)) := by
  simp [parseLi, ha, hb]

theorem parseSub_of_numbers {a b c : List Char} {rd rs1 rs2 : Nat} (ha : parseReg a = some rd) (hb : parseReg b = some rs1)
    (hc : parseReg c = some rs2) (rest : List (List Char)) :
    parseSub (a :: b :: c :: rest) = parsedWith rest (some (.sub rd rs1 rs2)) := by
  simp [parseSub, ha, hb, hc]

theorem parseBeq_of_numbers {a b c : List Char} {rs1 rs2 : Nat} {off : Int} (ha : parseReg a = some rs1) (hb : parseReg b = some rs2)
    (hc : parseImm c = some off) (rest : List (List Char)) :
    parseBeq (a :: b :: c :: rest) = parsedWith rest (some (.beq rs1 rs2 off)) := by
  simp [parseBeq, ha, hb, hc]

theorem parseJmp_of_number {a : List Char} {off : Int} (ha : parseImm a = some off) (rest : List (List Char)) :
    parseJmp (a :: rest) = parsedWith rest (some (.jmp off)) := by
  simp [parseJmp, ha]

/-! ### The obligations -/

/-- Settles O50: such a line has no statement. -/
theorem unhandledLineGivesTheZeroWord : Obligations.UnhandledLineGivesTheZeroWord := by
  intro m line
  refine ⟨fun hempty => ?empty, fun t ops htok => ?nonempty⟩
  case empty => simp [assembleLine, normalTokens, hempty, assembleTokens, parseTokens]
  case nonempty =>
    obtain ⟨hli, hsubBeq, hjmp⟩ := assembleLine_of_missing htok m
    refine ⟨fun hunknown => ?_, fun hname hlen => hli hname (.inl hlen), fun hname hlen => hsubBeq hname (.inl hlen),
      fun hname hlen => hjmp hname (.inl hlen)⟩
    rw [assembleLine_of_tokens htok]
    exact assembleTokens_of_malformed (parseTokens_of_unknown hunknown ops) m

/-- Settles O53: the parsers answer no statement when a due operand has no number, and EXIT's word does not depend on its operands. -/
theorem operandWithNoNumberGivesTheZeroWord : Obligations.OperandWithNoNumberGivesTheZeroWord := by
  intro m line t ops htok
  obtain ⟨hli, hsubBeq, hjmp⟩ := assembleLine_of_missing htok m
  refine ⟨fun hexit hm => ?_, fun hname hdigit => hli hname (.inr hdigit), fun hname hdigit => hsubBeq hname (.inr hdigit),
    fun hname hdigit => hjmp hname (.inr hdigit)⟩
  rw [assembleLine_of_tokens htok, hexit, assembleTokens, parseTokens_exit]
  exact encodeStmt_exit_eq_zero hm

/-- Settles O54: the due operands make the statement, and the surplus ones decide between its word and the zero word. -/
theorem surplusOperandsAreIgnoredOrGiveTheZeroWord : Obligations.SurplusOperandsAreIgnoredOrGiveTheZeroWord := by
  intro m line t a b c rest ra rb rc na nb nc hra hrb hrc hna hnb hnc
  refine ⟨fun htok hname => ?li, fun htok hname => ?sub, fun htok hname => ?beq, fun htok hname => ?jmp⟩
  all_goals rw [assembleLine_of_tokens htok, hname]
  case li => exact assembleTokens_of_parsedWith ((parseTokens_li _).trans (parseLi_of_numbers hra hnb rest)) m
  case sub => exact assembleTokens_of_parsedWith ((parseTokens_sub _).trans (parseSub_of_numbers hra hrb hrc rest)) m
  case beq => exact assembleTokens_of_parsedWith ((parseTokens_beq _).trans (parseBeq_of_numbers hra hrb hnc rest)) m
  case jmp => exact assembleTokens_of_parsedWith ((parseTokens_jmp _).trans (parseJmp_of_number hna rest)) m

/-- O54 on the line `LI 5, 42, 7`. -/
theorem witness_li_with_surplus_operand :
    assembleLine {} ['L', 'I', ' ', '5', ',', '4', '2', ',', '7'] = 0x08A0002A ∨
      assembleLine {} ['L', 'I', ' ', '5', ',', '4', '2', ',', '7'] = 0 := by
  obtain ⟨hli, -⟩ := surplusOperandsAreIgnoredOrGiveTheZeroWord {} ['L', 'I', ' ', '5', ',', '4', '2', ',', '7'] ['L', 'I'] ['5']
    ['4', '2'] ['7'] [['7']] 5 42 7 5 42 7 (by decide) (by decide) (by decide) (by decide) (by decide) (by decide)
  exact (hli (by decide) (by decide)).1

/-- The tokens of `SUB R1, R2, R3` with the mnemonic in any case and any runs of separators. -/
theorem tokens_sub_example {t p q r : List Char} (ht : List.Forall₂ CaseVariant t ['S', 'U', 'B']) (hp : SeparatorRun p)
    (hq : SeparatorRun q) (hr : SeparatorRun r) :
    tokens (t ++ p ++ ['R', '1'] ++ q ++ ['R', '2'] ++ r ++ ['R', '3']) = [t, ['R', '1'], ['R', '2'], ['R', '3']] := by
  have hsub : NoSeparator ['S', 'U', 'B'] := by simp [NoSeparator]
  have hname : NoSeparator t := noSeparator_of_caseVariant (ht.flip.imp fun _ _ => CaseVariant.symm) hsub
  have hne : t ≠ [] := by
    rintro rfl
    cases ht
  rw [tokens_append_separatorRun hr, tokens_append_separatorRun hq, tokens_append_separatorRun hp, tokens_of_noSeparator hname,
    if_neg hne]
  rfl

/-- Settles O51: separators cut a text into tokens, the mnemonic is the first of them, and its upper case is the same for every variant. -/
theorem mnemonicCaseAndSeparatorsDoNotMatter : Obligations.MnemonicCaseAndSeparatorsDoNotMatter := by
  refine ⟨fun l p r hp => tokens_append_separatorRun hp l r, fun t => tokens_of_noSeparator,
    fun m l t u r hcase ht hl hr => ?mnemonic, fun m t p q r hcase hp hq hr => ?subExample⟩
  case mnemonic =>
    cases hcase with
    | nil => rfl
    | cons hcd hrest =>
      have hcase := List.Forall₂.cons hcd hrest
      rw [assembleLine_of_tokens (tokens_first hl ht (by simp) hr),
        assembleLine_of_tokens (tokens_first hl (noSeparator_of_caseVariant hcase ht) (by simp) hr), map_upperChar_eq hcase]
  case subExample =>
    rw [assembleLine_of_tokens (tokens_sub_example hcase hp hq hr), map_upperChar_eq hcase]
    rfl

/-- O51 on the line `sUb R1 ,R2, R3`. -/
theorem witness_sub_in_mixed_case :
    assembleLine {} ['s', 'U', 'b', ' ', 'R', '1', ' ', ',', 'R', '2', ',', ' ', 'R', '3'] = encodeR 6 1 2 3 := by
  obtain ⟨-, -, -, hsub⟩ := mnemonicCaseAndSeparatorsDoNotMatter
  exact hsub {} ['s', 'U', 'b'] [' '] [' ', ','] [',', ' ']
    (.cons (.inr (.inl (by decide))) (.cons (.inl rfl) (.cons (.inr (.inl (by decide))) .nil)))
    (by simp [SeparatorRun]) (by simp [SeparatorRun]) (by simp [SeparatorRun])

end Sys2Proof.Machine
end

section
/-! PROOFS. The control loop (40_control_loop.md): the step at an address the fetch serves, the end of a run, and the host's ports. -/

namespace Sys2Proof.Machine

/-! ### The step and the run -/

/-- A step request in Halted changes nothing (R90; decision D10). -/
theorem step_of_halted {s : State} (h : s.running = false) : step s = .next s := by
  simp [step, cycleWith, h]

/-- Every step request is answered with a next state. -/
theorem step_eq_next (s : State) : ∃ t, step s = .next t := by
  obtain ⟨-, hs⟩ | ⟨-, -, hs⟩ | ⟨-, -, -, hs⟩ | ⟨-, i, -, hs⟩ | ⟨-, -, hs⟩ := step_cases s
  case inr.inr.inr.inl =>
    obtain ⟨t, ht, -⟩ := exec_cases i s.advancePc
    exact ⟨t, hs.trans ht⟩
  all_goals exact ⟨_, hs⟩

/-- A state that the step answers with itself is where a run of any length ends. -/
theorem run_of_step_eq_self {M : Host.Core} {s : M.State} (h : M.step s = .next s) (k : Nat) : M.run k s = .next s := by
  induction k with
  | zero => rfl
  | succ k ih => simp [Host.Core.run, h, ih]

/-- Settles O41: a halted state is a fixed point of the step. -/
theorem haltedStateIsFinal : Obligations.HaltedStateIsFinal :=
  fun k _ hhalted => run_of_step_eq_self (M := Sys2Proof.core) (step_of_halted hhalted) k

/-- O41 on a core that halted with an ILLEGAL_OPCODE at address 8. -/
theorem witness_halted_is_final :
    Host.Core.run Sys2Proof.core 1000 (State.reset.halt .illegalOpcode 8 63) = .next (State.reset.halt .illegalOpcode 8 63) :=
  haltedStateIsFinal 1000 _ rfl

/-- Settles O21: the sequencer's advance is the pc plus 4 (R86). -/
theorem stepRunsTheDecodedInstruction : Obligations.StepRunsTheDecodedInstruction := fun s i hready hdecode =>
  calc
    step s = exec i s.advancePc := step_of_decode hready hdecode
    _ = exec i { s with pc := s.pc + 4 } := rfl

/-- O21 on `ADDI R1, R0, 1` at address 0: register 1 gets 1 and the pc 4. -/
theorem witness_step_runs_addi : step addiAtResetCore = .next ((addiAtResetCore.setPc 4).writeReg 1 1) :=
  calc
    step addiAtResetCore = exec (.addi 1 0 1) { addiAtResetCore with pc := addiAtResetCore.pc + 4 } :=
      stepRunsTheDecodedInstruction addiAtResetCore (.addi 1 0 1) (by decide) (by decide)
    _ = .next ((addiAtResetCore.setPc 4).writeReg 1 1) := rfl

/-! ### The host's ports (R81) -/

theorem apply_load_of_started {h : HostSession} (hs : h.started = true) (image : List Byte) :
    h.apply (.load image) = .refused .hostWriteAfterStart := by
  simp [HostSession.apply, hs]

theorem apply_load_of_not_started {h : HostSession} (hs : h.started = false) (image : List Byte) :
    h.apply (.load image) = .next { h with core := h.core.loadImage image } := by
  simp [HostSession.apply, hs]

theorem apply_preset_of_started {h : HostSession} (hs : h.started = true) (i : RegIdx) (v : Word) :
    h.apply (.preset i v) = .refused .hostWriteAfterStart := by
  simp [HostSession.apply, hs]

theorem apply_preset_of_not_started {h : HostSession} (hs : h.started = false) (i : RegIdx) (v : Word) :
    h.apply (.preset i v) = .next { h with core := h.core.writeReg i v } := by
  simp [HostSession.apply, State.preset, hs]

/-- A step request that the core answers counts as a start, whatever the step does (R92; decision D13). -/
theorem apply_step_of_step {h : HostSession} {t : State} (ht : step h.core = .next t) :
    h.apply .step = .next { core := t, started := true } := by
  simp [HostSession.apply, HostSession.requestStep, ht]

theorem apply_reset (h : HostSession) : h.apply .reset = .next HostSession.fresh := rfl

/-- No output but `running` is usable while the core runs. -/
theorem readHalted_of_running {h : HostSession} (hr : h.core.running = true) {α : Type} (value : State → α) :
    h.readHalted value = .error .hostReadWhileRunning := by
  simp [HostSession.readHalted, hr]

theorem readHalted_of_halted {h : HostSession} (hr : h.core.running = false) {α : Type} (value : State → α) :
    h.readHalted value = .ok (value h.core) := by
  simp [HostSession.readHalted, hr]

theorem sameMemory_writeReg (s : State) (i : RegIdx) (v : Word) : SameMemory s (s.writeReg i v) :=
  fun a => congrArg (·.readByte a) (writeReg_mem s i v)

/-- Settles O46: one port after the other, by whether a step has been requested and by whether the core runs. -/
theorem hostPortsAreUsableWhenTheTableSaysSo : Obligations.HostPortsAreUsableWhenTheTableSaysSo := by
  intro h image i v
  refine ⟨fun hstarted => ?afterStart, fun hfresh => ?beforeStart, ?step, apply_reset h, fun hrun => ?running, fun hhalted => ?halted⟩
  case afterStart => exact ⟨apply_load_of_started hstarted image, apply_preset_of_started hstarted i v⟩
  case beforeStart =>
    exact ⟨apply_load_of_not_started hfresh image, _, apply_preset_of_not_started hfresh i v, hfresh,
      fun j => readReg_writeReg h.core i j v, writeReg_pc .., sameMemory_writeReg h.core i v, sameHaltState_writeReg ..⟩
  case step =>
    obtain ⟨t, ht⟩ := step_eq_next h.core
    exact ⟨_, apply_step_of_step ht, rfl, ht⟩
  case running => exact ⟨readHalted_of_running hrun _, readHalted_of_running hrun _, readHalted_of_running hrun _⟩
  case halted => exact ⟨readHalted_of_halted hhalted _, readHalted_of_halted hhalted _, readHalted_of_halted hhalted _⟩

/-- O46 before the first step: a preset of register 5 on a core just reset, then one of register 0, which is discarded. -/
theorem witness_preset_before_the_first_step :
    (∃ k, HostSession.fresh.apply (.preset 5 7) = .next k ∧ k.core.readReg 5 = 7) ∧
      ∃ k, HostSession.fresh.apply (.preset 0 7) = .next k ∧ k.core.readReg 0 = 0 := by
  obtain ⟨-, hfive, -⟩ := hostPortsAreUsableWhenTheTableSaysSo HostSession.fresh [] 5 7
  obtain ⟨-, hzero, -⟩ := hostPortsAreUsableWhenTheTableSaysSo HostSession.fresh [] 0 7
  obtain ⟨-, k, hk, -, hkreg, -⟩ := hfive rfl
  obtain ⟨-, l, hl, -, hlreg, -⟩ := hzero rfl
  exact ⟨⟨k, hk, hkreg 5⟩, l, hl, hlreg 0⟩

/-- O46 after the first step: on zeroed memory the core has halted at an EXIT at address 0, no preset is taken any more, and the pc and the
record can be read. -/
theorem witness_ports_after_the_first_step :
    ∃ k, HostSession.fresh.apply .step = .next k ∧ k.apply (.preset 5 7) = .refused .hostWriteAfterStart ∧
      k.readPc = .ok 4 ∧ k.readRecord = .ok ⟨0, 0, 0⟩ := by
  obtain ⟨-, -, ⟨k, hk, hstarted, hstep⟩, -⟩ := hostPortsAreUsableWhenTheTableSaysSo HostSession.fresh [] 5 7
  obtain ⟨hwrite, -, -, -, -, hread⟩ := hostPortsAreUsableWhenTheTableSaysSo k [] 5 7
  obtain ⟨t, ht, ⟨hhalted, hcause, haddr, hopcode⟩, hpc, -⟩ := zeroedMemoryExecutesAsExit State.reset (by decide) (fun _ _ => rfl)
  obtain rfl : t = k.core := Host.Outcome.next.inj (ht.symm.trans hstep)
  obtain ⟨-, hreadPc, hreadRecord⟩ := hread hhalted
  refine ⟨k, hk, (hwrite hstarted).2, ?pc, ?record⟩
  case pc =>
    rw [hreadPc, hpc]
    rfl
  case record =>
    rw [hreadRecord, hcause, haddr, hopcode]
    rfl

end Sys2Proof.Machine
end

section
/-! PROOFS. The arithmetic (41_arithmetic.md): the unit's results as numbers, unsigned and in two's complement, what one register write shows
and what it leaves, and ADD, ADDI and SUB as one register write each. -/

namespace Sys2Proof.Machine

/-! ### The arithmetic-logic unit's results as numbers (R104; decision D6) -/

theorem aluAdd_toNat (a b : Word) : (aluAdd a b).toNat = (a.toNat + b.toNat) % 2 ^ 64 :=
  BitVec.toNat_add a b

/-- The sum with an immediate reads as the sum with the signed number (R101): it is the sum of the target law. -/
theorem aluAdd_immOperand_toNat (a : Word) (imm : Int) :
    ((aluAdd a (immOperand imm)).toNat : Int) = ((a.toNat : Int) + imm) % 2 ^ 64 :=
  branchTarget_toNat a imm

theorem aluSub_toNat (a b : Word) : ((aluSub a b).toNat : Int) = ((a.toNat : Int) - (b.toNat : Int)) % 2 ^ 64 := by
  have hb := b.isLt
  rw [aluSub, BitVec.toNat_sub]
  omega

/-- The balanced remainder of the library, in the spec's spelling of the range -2^63 to 2^63 - 1. -/
theorem bmod_wordSize (x : Int) : x.bmod (2 ^ 64) = (x + 2 ^ 63) % 2 ^ 64 - 2 ^ 63 := by
  rw [Int.bmod_def]
  split <;> omega

theorem aluAdd_toInt (a b : Word) : (aluAdd a b).toInt = (a.toInt + b.toInt + 2 ^ 63) % 2 ^ 64 - 2 ^ 63 := by
  rw [aluAdd, BitVec.toInt_add, bmod_wordSize]

theorem aluSub_toInt (a b : Word) : (aluSub a b).toInt = (a.toInt - b.toInt + 2 ^ 63) % 2 ^ 64 - 2 ^ 63 := by
  rw [aluSub, BitVec.toInt_sub, bmod_wordSize]

/-- An immediate outside 64 bits is reduced before the sum, which changes nothing. -/
theorem aluAdd_immOperand_toInt (a : Word) (imm : Int) :
    (aluAdd a (immOperand imm)).toInt = (a.toInt + imm + 2 ^ 63) % 2 ^ 64 - 2 ^ 63 := by
  rw [aluAdd, immOperand, BitVec.toInt_add, BitVec.toInt_ofInt, Int.add_bmod_bmod, bmod_wordSize]

/-! ### The laws of the unit (R104) -/

theorem aluAdd_comm (a b : Word) : aluAdd a b = aluAdd b a :=
  BitVec.add_comm a b

theorem aluAdd_aluSub_cancel (a b : Word) : aluAdd (aluSub a b) b = a :=
  BitVec.sub_add_cancel a b

theorem aluAdd_immOperand_neg_cancel (a : Word) (k : Int) :
    aluAdd (aluAdd a (immOperand k)) (immOperand (-k)) = a := by
  rw [aluAdd, aluAdd, immOperand, immOperand, BitVec.ofInt_neg, ← BitVec.sub_eq_add_neg, BitVec.add_sub_cancel]

/-! ### One register write: what is read after it and what it leaves -/

/-- Any reading `f` of a register after a write of a value that reads as `x` (10_state.md R11). -/
theorem map_readReg_writeReg {α : Type} (f : Word → α) (s : State) (rd j : RegIdx) {v : Word} {x : α} (hv : f v = x) :
    f ((s.writeReg rd v).readReg j) = if j = rd ∧ rd ≠ 0 then x else f (s.readReg j) := by
  rw [readReg_writeReg, apply_ite f, hv]
  rfl

theorem readReg_writeReg_other (s : State) {rd j : RegIdx} (v : Word) (h : j ≠ rd) :
    (s.writeReg rd v).readReg j = s.readReg j := by
  rw [readReg_writeReg, if_neg fun hj => h hj.1]

/-- One value written to one register reads back the same over any two states, register 0 included. -/
theorem readReg_writeReg_agree (s u : State) (rd : RegIdx) (v : Word) :
    (s.writeReg rd v).readReg rd = (u.writeReg rd v).readReg rd := by
  by_cases h0 : rd = 0#5
  · simp [h0]
  · rw [readReg_writeReg_same s rd v h0, readReg_writeReg_same u rd v h0]

/-- What a register write leaves beside the register file. -/
theorem writeReg_frame (s : State) (rd : RegIdx) (v : Word) :
    (s.writeReg rd v).pc = s.pc ∧ SameMemory s (s.writeReg rd v) ∧ SameHaltState s (s.writeReg rd v) :=
  ⟨writeReg_pc .., sameMemory_writeReg s rd v, sameHaltState_writeReg ..⟩

/-! ### The instructions as one register write (R100 to R102) -/

theorem exec_add (rd rs1 rs2 : RegIdx) (s : State) :
    exec (.add rd rs1 rs2) s = .next (s.writeReg rd (aluAdd (s.readReg rs1) (s.readReg rs2))) := rfl

theorem exec_addi (rd rs1 : RegIdx) (imm : Int) (s : State) :
    exec (.addi rd rs1 imm) s = .next (s.writeReg rd (aluAdd (s.readReg rs1) (immOperand imm))) := rfl

theorem exec_sub (rd rs1 rs2 : RegIdx) (s : State) :
    exec (.sub rd rs1 rs2) s = .next (s.writeReg rd (aluSub (s.readReg rs1) (s.readReg rs2))) := rfl

/-- What R105 asks of an instruction with destination `rd`, run from `s` and from `u`. -/
def TouchesOnly (i : Instr) (rd : RegIdx) (s u : State) : Prop :=
  ∃ t v, exec i s = .next t ∧ exec i u = .next v ∧
    t.readReg rd = v.readReg rd ∧ (∀ j, j ≠ rd → t.readReg j = s.readReg j) ∧
    t.pc = s.pc ∧ SameMemory s t ∧ SameHaltState s t

/-- An instruction that writes the same value to `rd` from both states, and does no more. -/
theorem touchesOnly_of_exec_eq_writeReg {i : Instr} {rd : RegIdx} {s u : State} {x : Word}
    (hs : exec i s = .next (s.writeReg rd x)) (hu : exec i u = .next (u.writeReg rd x)) : TouchesOnly i rd s u :=
  ⟨_, _, hs, hu, readReg_writeReg_agree s u rd x, fun _ hj => readReg_writeReg_other s x hj, writeReg_frame s rd x⟩

/-! ### The obligations -/

/-- Settles O17: the value each of the three writes is computed from the named sources alone, so it is the same in both runs. -/
theorem arithmeticTouchesOnlyItsNamedRegisters : Obligations.ArithmeticTouchesOnlyItsNamedRegisters := by
  intro rd rs1 rs2 imm s u h1
  refine ⟨?addi, fun h2 i hi => ?registers⟩
  case addi => exact touchesOnly_of_exec_eq_writeReg (exec_addi rd rs1 imm s) (by rw [exec_addi, h1])
  case registers =>
    simp only [List.mem_cons, List.not_mem_nil, or_false] at hi
    obtain rfl | rfl := hi
    · exact touchesOnly_of_exec_eq_writeReg (exec_add rd rs1 rs2 s) (by rw [exec_add, h1, h2])
    · exact touchesOnly_of_exec_eq_writeReg (exec_sub rd rs1 rs2 s) (by rw [exec_sub, h1, h2])

/-- A core at `pc` whose registers 1 and 2 hold `x` and `y`. -/
def operandsCore (pc x y : Word) : State :=
  ({ State.reset with pc := pc }.writeReg 1 x).writeReg 2 y

/-- O17 on two cores that differ in the pc, in register 3, in memory and in the running flag: `SUB R3, R1, R2` gives register 3 the same
value. -/
theorem witness_sub_touches_only_its_registers :
    TouchesOnly (.sub 3 1 2) 3 (operandsCore 4 1 2)
      { (operandsCore 8 1 2).writeReg 3 9 with mem := [(8, 1)], running := false } :=
  (arithmeticTouchesOnlyItsNamedRegisters 3 1 2 0 (operandsCore 4 1 2)
    { (operandsCore 8 1 2).writeReg 3 9 with mem := [(8, 1)], running := false } (by decide)).2 (by decide) _ (by simp)

/-- Settles O19: the unit's laws, read back through the written register; SUB leaves the subtrahend for the ADD because it stands in another
register. -/
theorem arithmeticLawsOfWrapAround : Obligations.ArithmeticLawsOfWrapAround := by
  refine ⟨fun rd a b s => ?comm, fun rd a b s hb h0 => ?subAdd, fun rd a k s h0 => ?addiAddi⟩
  case comm => rw [exec_add, exec_add, aluAdd_comm]
  case subAdd =>
    refine ⟨_, _, exec_sub rd a b s, exec_add rd rd b _, ?_⟩
    rw [readReg_writeReg_same _ rd _ h0, readReg_writeReg_same s rd _ h0, readReg_writeReg_other s _ hb.symm,
      aluAdd_aluSub_cancel]
  case addiAddi =>
    refine ⟨_, _, exec_addi rd a k s, exec_addi rd rd (-k) _, ?_⟩
    rw [readReg_writeReg_same _ rd _ h0, readReg_writeReg_same s rd _ h0, aluAdd_immOperand_neg_cancel]

/-- The second law of O19 where the difference wraps below 0. -/
theorem witness_sub_then_add_restores :
    ∃ t u, exec (.sub 3 1 2) (operandsCore 4 1 2) = .next t ∧ exec (.add 3 3 2) t = .next u ∧ u.readReg 3 = 1 :=
  arithmeticLawsOfWrapAround.2.1 3 1 2 (operandsCore 4 1 2) (by decide) (by decide)

/-- Settles O20, from the unit's results in two's complement. -/
theorem arithmeticIsExactModuloInTwosComplement : Obligations.ArithmeticIsExactModuloInTwosComplement := by
  intro rd a b s h0
  refine ⟨⟨_, exec_add rd a b s, ?add⟩, ⟨_, exec_sub rd a b s, ?sub⟩, fun imm => ⟨_, exec_addi rd a imm s, ?addi⟩⟩
  case add => rw [readReg_writeReg_same s rd _ h0, aluAdd_toInt]
  case sub => rw [readReg_writeReg_same s rd _ h0, aluSub_toInt]
  case addi => rw [readReg_writeReg_same s rd _ h0, aluAdd_immOperand_toInt]

/-- O20 at the upper end of the range: 2^63 - 1 plus 1 is -2^63. -/
theorem witness_signed_sum_wraps :
    ∃ t, exec (.add 3 1 2) (operandsCore 4 0x7FFFFFFFFFFFFFFF 1) = .next t ∧ (t.readReg 3).toInt = -2 ^ 63 := by
  obtain ⟨⟨t, ht, hsum⟩, -⟩ :=
    arithmeticIsExactModuloInTwosComplement 3 1 2 (operandsCore 4 0x7FFFFFFFFFFFFFFF 1) (by decide)
  exact ⟨t, ht, hsum.trans (by decide)⟩

/-- Settles O10: the one write, read as unsigned numbers. -/
theorem addWritesTheSum : Obligations.AddWritesTheSum := fun rd rs1 rs2 s =>
  ⟨_, exec_add rd rs1 rs2 s, fun j => map_readReg_writeReg BitVec.toNat s rd j (aluAdd_toNat ..), writeReg_frame ..⟩

/-- Settles O11: the one write, read as integers because the immediate is signed. -/
theorem addiWritesTheSumWithTheSignedImmediate : Obligations.AddiWritesTheSumWithTheSignedImmediate := fun rd rs1 imm s =>
  ⟨_, exec_addi rd rs1 imm s,
    fun j => map_readReg_writeReg (fun w => (w.toNat : Int)) s rd j (aluAdd_immOperand_toNat ..), writeReg_frame ..⟩

/-- Settles O12: the one write, read as integers because the difference may be negative before the reduction. -/
theorem subWritesTheDifference : Obligations.SubWritesTheDifference := fun rd rs1 rs2 s =>
  ⟨_, exec_sub rd rs1 rs2 s,
    fun j => map_readReg_writeReg (fun w => (w.toNat : Int)) s rd j (aluSub_toNat ..), writeReg_frame ..⟩

end Sys2Proof.Machine
end

section
/-! PROOFS. Control transfer (42_control_transfer.md): BEQ and JMP as one write of the pc, with the target law as numbers. -/

namespace Sys2Proof.Machine

/-! ### BEQ and JMP as one write of the pc (R110, R111) -/

/-- What a write of the pc leaves. -/
theorem setPc_frame (s : State) (v : Word) :
    SameRegs s (s.setPc v) ∧ SameMemory s (s.setPc v) ∧ SameHaltState s (s.setPc v) :=
  ⟨setPc_readReg s v, fun a => congrArg (·.readByte a) (setPc_mem s v),
    setPc_running s v, setPc_haltCause s v, setPc_haltAddr s v, setPc_haltOpcode s v⟩

theorem exec_jmp (off : Int) (s : State) : exec (.jmp off) s = .next (s.setPc (branchTarget s.pc off)) := rfl

/-! ### The obligations -/

/-- Settles O13: BEQ's one write is of the target law's sum when the 64-bit patterns are the same, and of the pc itself when not. -/
theorem beqBranchesExactlyOnEquality : Obligations.BeqBranchesExactlyOnEquality := by
  intro rs1 rs2 off s
  refine ⟨_, exec_beq_eq_setPc rs1 rs2 off s, fun heq => ?taken, fun hne => ?notTaken, setPc_frame ..⟩
  case taken => rw [setPc_pc, if_pos (BitVec.eq_of_toNat_eq heq), branchTarget_toNat]
  case notTaken => rw [setPc_pc, if_neg fun h => hne (congrArg BitVec.toNat h)]

/-- O13 on `BEQ R1, R2, 4` at address 4, taken on equal registers. -/
theorem witness_beq_taken : ∃ t, exec (.beq 1 2 4) (operandsCore 8 5 5) = .next t ∧ (t.pc.toNat : Int) = 12 := by
  obtain ⟨t, ht, htaken, -⟩ := beqBranchesExactlyOnEquality 1 2 4 (operandsCore 8 5 5)
  exact ⟨t, ht, htaken (by decide)⟩

/-- O13 on the same branch, not taken on registers that differ in bit 32 alone. -/
theorem witness_beq_not_taken : ∃ t, exec (.beq 1 2 4) (operandsCore 8 0x100000000 0) = .next t ∧ t.pc = 8 := by
  obtain ⟨t, ht, -, hnotTaken, -⟩ := beqBranchesExactlyOnEquality 1 2 4 (operandsCore 8 0x100000000 0)
  exact ⟨t, ht, hnotTaken (by decide)⟩

/-- Settles O14: JMP's one write is of the target law's sum. -/
theorem jmpMovesThePcByTheOffset : Obligations.JmpMovesThePcByTheOffset := fun off s =>
  ⟨_, exec_jmp off s, branchTarget_toNat s.pc off, setPc_frame ..⟩

/-- O14 on `JMP -8` at address 0, which wraps below 0. -/
theorem witness_jmp_wraps_below_zero :
    ∃ t, exec (.jmp (-8)) (operandsCore 4 0 0) = .next t ∧ (t.pc.toNat : Int) = 2 ^ 64 - 4 := by
  obtain ⟨t, ht, hpc, -⟩ := jmpMovesThePcByTheOffset (-8) (operandsCore 4 0 0)
  exact ⟨t, ht, hpc⟩

end Sys2Proof.Machine
end

section
/-! PROOFS. EXIT, the reserved LI_SLOT word, and the words of the assembler (43_system.md): a halt's record and frame, and why no program
text carries the number of the name LI. -/

namespace Sys2Proof.Machine

/-! ### The assembler's words carry the number of an executed name (30_encoding.md R66 to R71) -/

/-- The opcode name whose number a statement's word carries: LI is ADDI there (30_encoding.md R67, 41_arithmetic.md R103). -/
def opcodeOfStmt : AsmStmt → Opcode
  | .exit => .exit
  | .li _ _ => .addi
  | .sub _ _ _ => .sub
  | .beq _ _ _ => .beq
  | .jmp _ => .jmp
  | .add _ _ _ => .add
  | .addi _ _ _ => .addi

theorem opcodeOfStmt_ne_li (s : AsmStmt) : opcodeOfStmt s ≠ .li := by
  cases s <;> exact Opcode.noConfusion

theorem encodeStmt_op (m : OpMap) (s : AsmStmt) : (decodeFields (encodeStmt m s)).op = m.number (opcodeOfStmt s) := by
  cases s with
  | exit | sub | add => exact encodeR_op ..
  | li | addi | beq | jmp => exact encodeI_op ..

/-- In an allowed map every line's word is a statement's: the zero word of a line that cannot be handled is EXIT's (R56, R72). -/
theorem assembleLine_eq_encodeStmt {m : OpMap} (hm : m.wellFormed = true) (line : List Char) :
    ∃ s, assembleLine m line = encodeStmt m s := by
  obtain hzero | ⟨s, -, hs⟩ := assembleTokens_cases m (normalTokens line)
  · exact ⟨.exit, hzero.trans (encodeStmt_exit_eq_zero hm).symm⟩
  · exact ⟨s, hs⟩

/-- In an allowed map a word with the number of a name other than LI decodes to an instruction other than LI_SLOT. -/
theorem decodeWith_ne_liSlot {m : OpMap} (hm : m.wellFormed = true) {w : InstrWord} {n : Opcode}
    (hw : (decodeFields w).op = m.number n) (hn : n ≠ .li) : ∃ i, decodeWith m w = .ok i ∧ i ≠ .liSlot := by
  refine ⟨_, decodeWith_of_number hm hw, fun hslot => hn ?_⟩
  rw [← instrOfFields_opcode (decodeFields w) n, hslot]
  rfl

/-! ### EXIT and LI_SLOT as one halt (R120, R124) -/

theorem exec_exit (s : State) : exec .exit s = .next (s.halt .exit (s.pc - 4) 0) := rfl

/-- The opcode in the record is the default map's number of the name LI (decisions D1, D5). -/
theorem exec_liSlot (s : State) : exec .liSlot s = .next (s.halt .illegalOpcode (s.pc - 4) 3) := rfl

/-- What a halt does: it writes the record and keeps the rest. -/
theorem halt_record_and_frame (s : State) (cause : HaltCause) (addr : Word) (op : OpNum) :
    HaltedWith (s.halt cause addr op) cause addr op ∧ (s.halt cause addr op).pc = s.pc ∧
      SameRegs s (s.halt cause addr op) ∧ SameMemory s (s.halt cause addr op) :=
  ⟨⟨halt_running .., halt_haltCause .., halt_haltAddr .., halt_haltOpcode ..⟩, halt_pc ..,
    halt_readReg s cause addr op, fun a => congrArg (·.readByte a) (halt_mem s cause addr op)⟩

/-! ### The obligations -/

/-- Settles O52: every assembled word is a statement's and carries the number of that statement's name, which is never LI; different names
have different numbers. -/
theorem noAssembledWordIsTheLiSlotWord : Obligations.NoAssembledWordIsTheLiSlotWord := by
  intro m lines hm w hw
  obtain ⟨line, -, rfl⟩ := List.mem_map.1 hw
  obtain ⟨s, hs⟩ := assembleLine_eq_encodeStmt hm line
  rw [hs]
  have hop := encodeStmt_op m s
  exact ⟨fun hli => opcodeOfStmt_ne_li s (OpMap.number_injective hm (hop.symm.trans hli)),
    decodeWith_ne_liSlot hm hop (opcodeOfStmt_ne_li s)⟩

/-- O52 on the program of an empty line and `LI R5, 42`, under a map that gives ADDI and LI each other's default number. -/
theorem witness_li_line_is_no_liSlot_word :
    ∃ i, decodeWith { addi := 3, li := 2 } 0x0CA0002A = .ok i ∧ i ≠ .liSlot :=
  (noAssembledWordIsTheLiSlotWord { addi := 3, li := 2 } [[], ['L', 'I', ' ', 'R', '5', ',', ' ', '4', '2']] (by decide)
    0x0CA0002A (by decide)).2

/-- Settles O15: EXIT is one halt. -/
theorem exitHaltsWithItsAddress : Obligations.ExitHaltsWithItsAddress := fun s =>
  ⟨_, exec_exit s, halt_record_and_frame s .exit (s.pc - 4) 0⟩

/-- O15 on the EXIT at address 12. -/
theorem witness_exit_at_twelve : ∃ t, exec .exit (operandsCore 16 1 2) = .next t ∧ HaltedWith t .exit 12 0 ∧ t.readReg 2 = 2 := by
  obtain ⟨t, ht, hrecord, -, hregs, -⟩ := exitHaltsWithItsAddress (operandsCore 16 1 2)
  exact ⟨t, ht, hrecord, hregs 2⟩

/-- Settles O16: LI_SLOT is one halt, with the number of its own name. -/
theorem liSlotTakesIllegalOpcode : Obligations.LiSlotTakesIllegalOpcode := fun s =>
  ⟨_, exec_liSlot s, halt_record_and_frame s .illegalOpcode (s.pc - 4) 3⟩

/-- O16 on the LI_SLOT word at address 4. -/
theorem witness_liSlot_at_four :
    ∃ t, exec .liSlot (operandsCore 8 1 2) = .next t ∧ HaltedWith t .illegalOpcode 4 3 ∧ t.readReg 2 = 2 := by
  obtain ⟨t, ht, hrecord, -, hregs, -⟩ := liSlotTakesIllegalOpcode (operandsCore 8 1 2)
  exact ⟨t, ht, hrecord, hregs 2⟩

end Sys2Proof.Machine
end

section
/-! PROOFS. Exceptions (60_exceptions.md): the two fetch traps, the words with no arm in the dispatch, the totality of the step, and what the
host can do to a halted core. -/

namespace Sys2Proof.Machine

/-! ### The fetch traps (R132 to R134) -/

/-- The alignment check stands before the range check (R134; decision D16), so it needs no range. -/
theorem fetchWith_of_misaligned {s : State} (h : s.pc.toNat % 4 ≠ 0) :
    fetchWith Config.params s = .trap .fetchMisaligned := by
  rw [fetchWith_default, if_pos h]

theorem fetchWith_of_outOfRange {s : State} (halign : s.pc.toNat % 4 = 0) (hrange : 65532 < s.pc.toNat) :
    fetchWith Config.params s = .trap .fetchOutOfRange := by
  rw [fetchWith_default, if_neg (not_not_intro halign), if_pos hrange]

/-- A trapped fetch halts a running core: the record has its cause, the pc and opcode 0, and all else stays (R135; decision D9). -/
theorem step_of_trap {s : State} {cause : HaltCause} (hrun : s.running = true)
    (htrap : fetchWith Config.params s = .trap cause) :
    ∃ t, step s = .next t ∧ HaltedWith t cause s.pc 0 ∧ t.pc = s.pc ∧ SameRegs s t ∧ SameMemory s t := by
  have hstep : step s = .next (s.raiseFetchFault cause) := by simp [step, cycleWith, hrun, htrap]
  exact ⟨_, hstep, halt_record_and_frame s cause s.pc 0⟩

/-! ### The words with no arm in the dispatch (R131) -/

/-- The LI_SLOT word and the words whose opcode has no name take one and the same ILLEGAL_OPCODE, with the opcode fetched
(decisions D1, D5). -/
theorem executeWord_of_unknownOpcode {w : InstrWord} (h : w.toNat / 2 ^ 26 = 3 ∨ 7 ≤ w.toNat / 2 ^ 26) (s : State) :
    executeWord Config.params w s = .next (s.raiseIllegalOpcode (decodeFields w).op) := by
  obtain ⟨-, -, hrejected, hliSlot, -⟩ := decoderRejectsExactlyTheUnknownOpcodes
  obtain hthree | hunnamed := h
  · have hop : (decodeFields w).op = 3 := BitVec.eq_of_toNat_eq ((decodeFields_op_toNat w).trans hthree)
    rw [executeWord_of_decodeWith ((hliSlot w).2 hthree), execWith_default, hop]
    rfl
  · have hdecode : decodeWith Config.params.opMap w = .error (.illegalOpcode (decodeFields w).op) :=
      (hrejected w).2 hunnamed
    simp [executeWord, hdecode]

/-! ### What a command of the host can do (40_control_loop.md R81) -/

/-- Every answered command: a reset, a load or a preset before the first step, or a step that the core answers. -/
theorem apply_cases {h k : HostSession} {c : HostCommand} (hk : h.apply c = .next k) :
    (c = .reset ∧ k = HostSession.fresh) ∨
      (∃ image, c = .load image ∧ h.started = false ∧ k = { h with core := h.core.loadImage image }) ∨
      (∃ i v, c = .preset i v ∧ h.started = false ∧ k = { h with core := h.core.writeReg i v }) ∨
      (∃ t, c = .step ∧ step h.core = .next t ∧ k = { core := t, started := true }) := by
  cases c with
  | reset => exact .inl ⟨rfl, (Host.Outcome.next.inj hk).symm⟩
  | load image =>
    obtain hs | hs := h.started.eq_false_or_eq_true
    · cases (apply_load_of_started hs image).symm.trans hk
    · cases (apply_load_of_not_started hs image).symm.trans hk
      exact .inr (.inl ⟨image, rfl, hs, rfl⟩)
  | preset i v =>
    obtain hs | hs := h.started.eq_false_or_eq_true
    · cases (apply_preset_of_started hs i v).symm.trans hk
    · cases (apply_preset_of_not_started hs i v).symm.trans hk
      exact .inr (.inr (.inl ⟨i, v, rfl, hs, rfl⟩))
  | step =>
    obtain ⟨t, ht⟩ := step_eq_next h.core
    cases (apply_step_of_step ht).symm.trans hk
    exact .inr (.inr (.inr ⟨t, rfl, ht, rfl⟩))

/-! ### The obligations -/

/-- Settles O23: the word is fetched, the pc advanced, and either decision leads to the one ILLEGAL_OPCODE. -/
theorem unknownOpcodeHaltsInOneStep : Obligations.UnknownOpcodeHaltsInOneStep := by
  intro s hready hop
  have hstep : step s = .next (s.advancePc.raiseIllegalOpcode (decodeFields (wordAt s.mem s.pc.toNat)).op) :=
    (cycleWith_of_fetchWith hready.1 (fetch_ready hready)).trans (executeWord_of_unknownOpcode hop s.advancePc)
  exact ⟨_, hstep, advancePc_raiseIllegalOpcode s _⟩

/-- A core at the last word of memory, which is zero but for its highest byte. -/
def lastWordCore (b : Byte) : State := { operandsCore 65532 1 2 with mem := [(65535, b)] }

/-- O23 at the boundary opcodes: 3, which has a name and no arm, and 7, the lowest without a name. -/
theorem witness_unknown_opcodes_three_and_seven :
    (∃ t, step (lastWordCore 0x0C) = .next t ∧ HaltedWith t .illegalOpcode 65532 3 ∧ t.pc = 65536) ∧
      ∃ t, step (lastWordCore 0x1C) = .next t ∧ HaltedWith t .illegalOpcode 65532 7 ∧ t.pc = 65536 := by
  obtain ⟨t, ht, htrecord, htpc, -⟩ := unknownOpcodeHaltsInOneStep (lastWordCore 0x0C) (by decide) (by decide)
  obtain ⟨u, hu, hurecord, hupc, -⟩ := unknownOpcodeHaltsInOneStep (lastWordCore 0x1C) (by decide) (by decide)
  exact ⟨⟨t, ht, htrecord, htpc⟩, u, hu, hurecord, hupc⟩

/-- Settles O27: each way a step can go ends in a next state. -/
theorem everyStepHasANextState : Obligations.EveryStepHasANextState :=
  step_eq_next

/-- Settles O45: of the four kinds of answered commands only a reset writes the running flag, the record or the pc of a halted core; a step
request changes nothing at all (R90). -/
theorem onlyResetLeavesHalted : Obligations.OnlyResetLeavesHalted := by
  intro h k c hhalted hk
  obtain ⟨rfl, rfl⟩ | ⟨image, rfl, -, rfl⟩ | ⟨i, v, rfl, -, rfl⟩ | ⟨t, rfl, hstep, rfl⟩ := apply_cases hk
  case inl => exact .inl ⟨rfl, rfl, rfl, reset_readReg⟩
  case inr.inl => exact .inr ⟨HostCommand.noConfusion, hhalted, rfl, rfl, rfl, rfl⟩
  case inr.inr.inl =>
    exact .inr ⟨HostCommand.noConfusion, (writeReg_running ..).trans hhalted, writeReg_haltCause .., writeReg_haltAddr ..,
      writeReg_haltOpcode .., writeReg_pc ..⟩
  case inr.inr.inr =>
    obtain rfl : h.core = t := Host.Outcome.next.inj ((step_of_halted hhalted).symm.trans hstep)
    exact .inr ⟨HostCommand.noConfusion, hhalted, rfl, rfl, rfl, rfl⟩

/-- A session whose core has halted with an ILLEGAL_OPCODE at address 8. -/
def haltedSession : HostSession where
  core := (operandsCore 12 1 2).halt .illegalOpcode 8 63
  started := true

/-- O45 on a step request, which leaves the core halted at its pc, and on a reset, which begins anew. -/
theorem witness_only_reset_restarts :
    (∃ k, haltedSession.apply .step = .next k ∧ k.core.running = false ∧ k.core.haltAddr = 8 ∧ k.core.pc = 12) ∧
      ∃ k, haltedSession.apply .reset = .next k ∧ k.core.running = true ∧ k.core.pc = 0 ∧ k.core.readReg 2 = 0 := by
  have hstep : haltedSession.apply .step = .next haltedSession := apply_step_of_step (step_of_halted rfl)
  refine ⟨⟨_, hstep, ?step⟩, _, apply_reset haltedSession, ?reset⟩
  case step =>
    obtain ⟨hreset, -⟩ | ⟨-, hoff, -, haddr, -, hpc⟩ := onlyResetLeavesHalted _ _ _ rfl hstep
    · cases hreset
    · exact ⟨hoff, haddr, hpc⟩
  case reset =>
    obtain ⟨-, hon, hpc, hregs⟩ | ⟨hne, -⟩ := onlyResetLeavesHalted _ _ _ rfl (apply_reset haltedSession)
    · exact ⟨hon, hpc, hregs 2⟩
    · exact absurd rfl hne

/-- Settles O24: the fetch traps on the range check. -/
theorem outOfRangeFetchHaltsTheCore : Obligations.OutOfRangeFetchHaltsTheCore := fun _ hrun halign hrange =>
  step_of_trap hrun (fetchWith_of_outOfRange halign hrange)

/-- O24 at the first address past memory. -/
theorem witness_fetch_past_memory :
    ∃ t, step (operandsCore 65536 1 2) = .next t ∧ HaltedWith t .fetchOutOfRange 65536 0 ∧ t.readReg 2 = 2 := by
  obtain ⟨t, ht, hrecord, -, hregs, -⟩ :=
    outOfRangeFetchHaltsTheCore (operandsCore 65536 1 2) (by decide) (by decide) (by decide)
  exact ⟨t, ht, hrecord, hregs 2⟩

/-- Settles O25: the fetch traps on the alignment check, whatever the range. -/
theorem misalignedFetchHaltsTheCoreFirst : Obligations.MisalignedFetchHaltsTheCoreFirst := fun _ hrun hmisaligned =>
  step_of_trap hrun (fetchWith_of_misaligned hmisaligned)

/-- O25 at a pc that is out of range too. -/
theorem witness_misaligned_fetch_past_memory :
    ∃ t, step (operandsCore 65537 1 2) = .next t ∧ HaltedWith t .fetchMisaligned 65537 0 ∧ t.readReg 2 = 2 := by
  obtain ⟨t, ht, hrecord, -, hregs, -⟩ := misalignedFetchHaltsTheCoreFirst (operandsCore 65537 1 2) (by decide) (by decide)
  exact ⟨t, ht, hrecord, hregs 2⟩

end Sys2Proof.Machine
end

section
/-! PROOFS. The invariants and what stands beside the instructions: the halt record along steps and runs, memory as canonical data, the
fetched and the placed word, the sub-blocks as a second design of the step, the words of statements. -/

namespace Sys2Proof.Machine

/-! ### The record of a halt (10_state.md R18, 60_exceptions.md R130 to R133) -/

/-- While the core runs, the record has nothing to be true of (R18). -/
theorem haltRecordTrue_of_running {s : State} (h : s.running = true) : HaltRecordTrue s :=
  fun hhalted => by cases h.symm.trans hhalted

/-- What a record of cause EXIT must say: the pc is past a word with opcode 0 (43_system.md R120). -/
theorem haltRecordTrue_halt_exit_iff (s : State) (a : Word) (op : OpNum) :
    HaltRecordTrue (s.halt .exit a op) ↔
      op = 0 ∧ s.pc = a + 4 ∧ a.toNat % 4 = 0 ∧ a.toNat ≤ 65532 ∧ (decodeFields (wordAt s.mem a.toNat)).op = 0 := by
  simp [HaltRecordTrue]

/-- What a record of cause ILLEGAL_OPCODE must say: the pc is past a word with the recorded opcode, which has no arm (R131). -/
theorem haltRecordTrue_halt_illegalOpcode_iff (s : State) (a : Word) (op : OpNum) :
    HaltRecordTrue (s.halt .illegalOpcode a op) ↔
      isExecuted op = false ∧ s.pc = a + 4 ∧ a.toNat % 4 = 0 ∧ a.toNat ≤ 65532 ∧
        (decodeFields (wordAt s.mem a.toNat)).op = op := by
  simp [HaltRecordTrue]

/-- What a record of cause FETCH_OUT_OF_RANGE must say: the pc stands at an aligned address past the last word (R132). -/
theorem haltRecordTrue_halt_fetchOutOfRange_iff (s : State) (a : Word) (op : OpNum) :
    HaltRecordTrue (s.halt .fetchOutOfRange a op) ↔ op = 0 ∧ s.pc = a ∧ a.toNat % 4 = 0 ∧ 65532 < a.toNat := by
  simp [HaltRecordTrue]

/-- What a record of cause FETCH_MISALIGNED must say: the pc stands at an address that is no multiple of 4 (R133). -/
theorem haltRecordTrue_halt_fetchMisaligned_iff (s : State) (a : Word) (op : OpNum) :
    HaltRecordTrue (s.halt .fetchMisaligned a op) ↔ op = 0 ∧ s.pc = a ∧ a.toNat % 4 ≠ 0 := by
  simp [HaltRecordTrue]

/-- An opcode with no name has no arm in the dispatch (40_control_loop.md R88). -/
theorem isExecuted_of_opcodeNamed?_none {op : OpNum} (h : opcodeNamed? Config.params.opMap op = none) :
    isExecuted op = false := by
  simp [isExecuted, h]

/-- ILLEGAL_OPCODE after the advance records the truth, if the fetched word's opcode has no arm. -/
theorem haltRecordTrue_raiseIllegalOpcode {s : State} {op : OpNum} (hready : ReadyToFetch s)
    (hop : (decodeFields (wordAt s.mem s.pc.toNat)).op = op) (hexecuted : isExecuted op = false) :
    HaltRecordTrue (s.advancePc.raiseIllegalOpcode op) := by
  obtain ⟨-, halign, hrange⟩ := hready
  rw [State.raiseIllegalOpcode, advancePc_currentAddr]
  exact (haltRecordTrue_halt_illegalOpcode_iff ..).2 ⟨hexecuted, rfl, halign, hrange, hop⟩

/-- An EXIT after the advance records the truth. -/
theorem haltRecordTrue_exit {s : State} (hready : ReadyToFetch s) (hop : (decodeFields (wordAt s.mem s.pc.toNat)).op = 0) :
    HaltRecordTrue (s.advancePc.halt .exit s.advancePc.currentAddr 0) := by
  obtain ⟨-, halign, hrange⟩ := hready
  rw [advancePc_currentAddr]
  exact (haltRecordTrue_halt_exit_iff ..).2 ⟨rfl, rfl, halign, hrange, hop⟩

/-- The opcode of a fetched word that decodes to an instruction is the default map's number of that instruction's name. -/
theorem op_of_decode {w : InstrWord} {i : Instr} (h : decode w = .ok i) :
    (decodeFields w).op = Config.params.opMap.number i.opcode := by
  obtain ⟨n, hn, rfl⟩ := decodeWith_eq_ok h
  rw [instrOfFields_opcode, hn]

/-- A decoded instruction goes on, or halts with a true record: only EXIT and the LI_SLOT word halt. -/
theorem haltRecordTrue_exec {s t : State} {i : Instr} (hready : ReadyToFetch s)
    (hdecode : decode (wordAt s.mem s.pc.toNat) = .ok i) (hexec : exec i s.advancePc = .next t) : HaltRecordTrue t := by
  obtain ⟨-, -, hsame⟩ | ⟨rfl | rfl, -⟩ := exec_running hexec
  case inl => exact haltRecordTrue_of_running (hsame.trans hready.1)
  case inr.inl =>
    cases hexec
    exact haltRecordTrue_exit hready (op_of_decode hdecode)
  case inr.inr =>
    cases hexec
    exact haltRecordTrue_raiseIllegalOpcode hready (op_of_decode hdecode) (by decide)

/-- A step keeps a true record, and every halt writes a true one. -/
theorem step_haltRecordTrue {s t : State} (hs : HaltRecordTrue s) (hstep : step s = .next t) : HaltRecordTrue t := by
  obtain ⟨-, h⟩ | ⟨-, hmis, h⟩ | ⟨-, halign, hout, h⟩ | ⟨hready, i, hdecode, h⟩ | ⟨hready, hnone, h⟩ := step_cases s
  case inl =>
    cases h.symm.trans hstep
    exact hs
  case inr.inl =>
    cases h.symm.trans hstep
    exact (haltRecordTrue_halt_fetchMisaligned_iff ..).2 ⟨rfl, rfl, hmis⟩
  case inr.inr.inl =>
    cases h.symm.trans hstep
    exact (haltRecordTrue_halt_fetchOutOfRange_iff ..).2 ⟨rfl, rfl, halign, hout⟩
  case inr.inr.inr.inl => exact haltRecordTrue_exec hready hdecode (h.symm.trans hstep)
  case inr.inr.inr.inr =>
    cases h.symm.trans hstep
    exact haltRecordTrue_raiseIllegalOpcode hready rfl (isExecuted_of_opcodeNamed?_none hnone)

/-- Settles O35: memory stays as it is, and every halt writes a true record. -/
theorem everyStepKeepsTheHaltRecordTrue : Obligations.EveryStepKeepsTheHaltRecordTrue := by
  rintro s t ⟨hmem, hrecord⟩ hstep
  exact ⟨by rwa [step_mem hstep], step_haltRecordTrue hrecord hstep⟩

/-- Settles O36: memory is empty, and the core runs. -/
theorem resetMeetsTheHaltRecordInvariant : Obligations.ResetMeetsTheHaltRecordInvariant :=
  ⟨reset_mem_wf, haltRecordTrue_of_running rfl⟩

/-- Settles O26. -/
theorem stepInHaltedChangesNothing : Obligations.StepInHaltedChangesNothing := fun _ => step_of_halted

/-! ### Runs of any length (40_control_loop.md R89) -/

/-- What holds between the ends of each step, and is reflexive and transitive, holds between the ends of a run. -/
theorem exists_run_of_forall_step {M : Host.Core} {R : M.State → M.State → Prop} (hrefl : ∀ s, R s s)
    (htrans : ∀ s t u, R s t → R t u → R s u) (hstep : ∀ s, ∃ t, M.step s = .next t ∧ R s t) (k : Nat) (s : M.State) :
    ∃ t, M.run k s = .next t ∧ R s t := by
  induction k generalizing s with
  | zero => exact ⟨s, rfl, hrefl s⟩
  | succ k ih =>
    obtain ⟨t, ht, hst⟩ := hstep s
    obtain ⟨u, hu, htu⟩ := ih t
    exact ⟨u, by simp [Host.Core.run, ht, hu], htrans s t u hst htu⟩

/-- The memory is the same, and the invariant passes on. -/
def KeepsMemoryAndInv (s t : State) : Prop := t.mem = s.mem ∧ (MachineInv s → MachineInv t)

theorem keepsMemoryAndInv_trans (s t u : State) (hst : KeepsMemoryAndInv s t) (htu : KeepsMemoryAndInv t u) :
    KeepsMemoryAndInv s u := by
  obtain ⟨hmem, hinv⟩ := hst
  obtain ⟨hmem', hinv'⟩ := htu
  exact ⟨hmem'.trans hmem, hinv' ∘ hinv⟩

theorem step_keepsMemoryAndInv (s : State) : ∃ t, step s = .next t ∧ KeepsMemoryAndInv s t := by
  obtain ⟨t, ht⟩ := step_eq_next s
  exact ⟨t, ht, step_mem ht, fun hinv => everyStepKeepsTheHaltRecordTrue s t hinv ht⟩

/-- Settles O40, by induction over the steps. -/
theorem everyRunReachesAStateAndKeepsTheInvariant : Obligations.EveryRunReachesAStateAndKeepsTheInvariant :=
  exists_run_of_forall_step (M := Sys2Proof.core) (R := KeepsMemoryAndInv) (fun _ => ⟨rfl, id⟩) keepsMemoryAndInv_trans
    step_keepsMemoryAndInv

/-- O35 where the step halts at an EXIT and at each of the two fetch faults. -/
theorem witness_step_records_the_truth :
    (∃ t, step zeroLastWordCore = .next t ∧ t.haltCause = .exit ∧ MachineInv t) ∧
      (∃ t, step (operandsCore 65536 1 2) = .next t ∧ t.haltCause = .fetchOutOfRange ∧ MachineInv t) ∧
      ∃ t, step (operandsCore 65537 1 2) = .next t ∧ t.haltCause = .fetchMisaligned ∧ MachineInv t := by
  obtain ⟨t, ht, ⟨-, htcause, -⟩, -⟩ := witness_zeroed_last_word
  obtain ⟨u, hu, ⟨-, hucause, -⟩, -⟩ := witness_fetch_past_memory
  obtain ⟨v, hv, ⟨-, hvcause, -⟩, -⟩ := witness_misaligned_fetch_past_memory
  exact ⟨⟨t, ht, htcause, everyStepKeepsTheHaltRecordTrue _ t (by decide) ht⟩,
    ⟨u, hu, hucause, everyStepKeepsTheHaltRecordTrue _ u (by decide) hu⟩,
    v, hv, hvcause, everyStepKeepsTheHaltRecordTrue _ v (by decide) hv⟩

/-- O40 on two steps from reset over `ADDI R1, R0, 1`: an ADDI, then an EXIT from zeroed memory. -/
theorem witness_run_keeps_the_invariant :
    ∃ t, Host.Core.run Sys2Proof.core 2 addiAtResetCore = .next t ∧ t.mem = addiAtResetCore.mem ∧ MachineInv t := by
  obtain ⟨t, ht, hmem, hinv⟩ := everyRunReachesAStateAndKeepsTheInvariant 2 addiAtResetCore
  exact ⟨t, ht, hmem, hinv (by decide)⟩

/-! ### Canonical memory -/

/-- A canonical memory that is not empty reads as listed at its first address, inside the memory. -/
theorem Memory.lookup_head_ne_unlisted {lo a : Nat} {b : Byte} {m : Memory} (hm : Memory.wfFrom lo ((a, b) :: m) = true) :
    a < Config.memSize ∧ Memory.lookup ((a, b) :: m) a ≠ Memory.unlisted := by
  obtain ⟨-, ha, hb, -⟩ := (Memory.wfFrom_cons ..).1 hm
  exact ⟨ha, by simpa [Memory.lookup] using hb⟩

/-- Of two canonical memories that read alike, the second begins no higher than the first. -/
theorem Memory.head_le_of_lookup_eq {lo hi a c : Nat} {b d : Byte} {m n : Memory} (hm : Memory.wfFrom lo ((a, b) :: m) = true)
    (hn : Memory.wfFrom hi ((c, d) :: n) = true)
    (h : ∀ k, k < Config.memSize → Memory.lookup ((a, b) :: m) k = Memory.lookup ((c, d) :: n) k) : c ≤ a := by
  obtain ⟨ha, hne⟩ := Memory.lookup_head_ne_unlisted hm
  obtain ⟨-, hrest⟩ := (Memory.wfFrom_cons ..).1 hn
  by_contra! hlt
  have hbelow : Memory.lookup ((c, d) :: n) a = Memory.unlisted :=
    Memory.lookup_below ((Memory.wfFrom_cons ..).2 ⟨le_rfl, hrest⟩) hlt
  exact hne ((h a ha).trans hbelow)

/-- What a canonical memory reads determines it, from any lower bound of its addresses. -/
theorem Memory.eq_of_lookup_eq {lo hi : Nat} {m n : Memory} (hm : Memory.wfFrom lo m = true) (hn : Memory.wfFrom hi n = true)
    (h : ∀ k, k < Config.memSize → m.lookup k = n.lookup k) : m = n := by
  induction m generalizing lo hi n with
  | nil =>
    cases n with
    | nil => rfl
    | cons cell n =>
      obtain ⟨hc, hne⟩ := Memory.lookup_head_ne_unlisted hn
      exact absurd (h _ hc).symm hne
  | cons cell m ih =>
    obtain ⟨a, b⟩ := cell
    cases n with
    | nil =>
      obtain ⟨ha, hne⟩ := Memory.lookup_head_ne_unlisted hm
      exact absurd (h _ ha) hne
    | cons cell' n =>
      obtain ⟨c, d⟩ := cell'
      obtain rfl : a = c := le_antisymm (Memory.head_le_of_lookup_eq hn hm fun k hk => (h k hk).symm)
        (Memory.head_le_of_lookup_eq hm hn h)
      obtain ⟨-, ha, -, hmrest⟩ := (Memory.wfFrom_cons ..).1 hm
      obtain ⟨-, -, -, hnrest⟩ := (Memory.wfFrom_cons ..).1 hn
      obtain rfl : b = d := by simpa [Memory.lookup] using h a ha
      have hrest : ∀ k, k < Config.memSize → Memory.lookup m k = Memory.lookup n k := fun k hk => by
        by_cases hka : k < a + 1
        · rw [Memory.lookup_below hmrest hka, Memory.lookup_below hnrest hka]
        · have hne : a ≠ k := by omega
          simpa [Memory.lookup, hne] using h k hk
      rw [ih hmrest hnrest hrest]

/-- Settles O39: inside the memory a read is the lookup, and the lookups determine a canonical memory. -/
theorem canonicalMemoriesThatReadAlikeAreEqual : Obligations.CanonicalMemoriesThatReadAlikeAreEqual := by
  intro m n hm hn hread
  refine Memory.eq_of_lookup_eq hm hn fun k hk => ?_
  have hk' := hread k
  rw [readByte_inside hk, readByte_inside hk] at hk'
  exact Except.ok.inj hk'

/-- O39 on two bytes written in either order: the memories read alike at every address, so they are one list. -/
theorem witness_two_writes_in_either_order :
    (Memory.insert [] 8 2).insert 4 1 = (Memory.insert [] 4 1).insert 8 2 := by
  refine canonicalMemoriesThatReadAlikeAreEqual _ _ (by decide) (by decide) fun a => ?_
  have hlookup : ((Memory.insert [] 8 2).insert 4 1).lookup a = ((Memory.insert [] 4 1).insert 8 2).lookup a := by
    rw [Memory.lookup_insert (by decide), Memory.lookup_insert (by decide), Memory.lookup_insert (by decide),
      Memory.lookup_insert (by decide)]
    by_cases h4 : a = 4
    · simp [h4]
    · simp [h4]
  simp only [Memory.readByte, hlookup]

/-! ### The fetched word and the placed word (20_memory.md R31, 70_reset_and_hazards.md R152) -/

/-- Settles O9: at an address the fetch serves it answers the four bytes in the machine's order, which is little-endian. -/
theorem fetchedWordIsLittleEndian : Obligations.FetchedWordIsLittleEndian := fun _ hready =>
  ⟨_, fetch_ready hready, wordOfBytes_little_toNat ..⟩

/-- O9 on the bytes 01, 00, 20, 08 from address 0 up. -/
theorem witness_fetched_word_is_little_endian :
    ∃ w, fetchWith Config.params addiAtResetCore = .word w ∧ w.toNat = 0x08200001 := by
  obtain ⟨w, hw, hvalue⟩ := fetchedWordIsLittleEndian addiAtResetCore (by decide)
  exact ⟨w, hw, hvalue.trans (by decide)⟩

/-- Writing leaves every address before the first byte and after the last as it was. -/
theorem lookup_memWriteBytes_outside (bs : List Byte) {m : Memory} {a j : Nat} (hm : m.wf = true)
    (hj : j < a ∨ a + bs.length ≤ j) : (memWriteBytes m a bs).lookup j = m.lookup j := by
  rw [lookup_memWriteBytes bs hm]
  split
  · rw [List.getElem?_eq_none (by omega), Option.getD_none]
  · rfl

/-- A word written inside the memory reads back (20_memory.md R31). -/
theorem wordAt_memWriteBytes {m : Memory} {a : Nat} (hm : m.wf = true) (ha : a ≤ 65532) (w : InstrWord) :
    wordAt (memWriteBytes m a (bytesOfWord Config.params.byteOrder w)) a = w := by
  obtain ⟨b0, b1, b2, b3, hbytes, hword⟩ := bytesOfWord_eq_four Config.params.byteOrder w
  have hbyte : ∀ k, k < 4 → (memWriteBytes m a [b0, b1, b2, b3]).lookup (a + k) =
      ([b0, b1, b2, b3][k]?).getD (m.lookup (a + k)) := fun k hk => by
    have hinside : a + k < 65536 := by omega
    rw [lookup_memWriteBytes _ hm, if_pos ⟨Nat.le_add_right a k, hinside⟩, Nat.add_sub_cancel_left]
  have hbyte0 : (memWriteBytes m a [b0, b1, b2, b3]).lookup a = b0 := hbyte 0 (by decide)
  rw [hbytes, wordAt, hbyte0, hbyte 1 (by decide), hbyte 2 (by decide), hbyte 3 (by decide)]
  exact hword

theorem fetchable_iff (pc : Word) : fetchable pc = true ↔ pc.toNat % 4 = 0 ∧ pc.toNat ≤ 65532 := by
  simp [fetchable, fetchMisaligned, fetchOutOfRange, Config.params]

/-- A whole word's low 32 bits are the word. -/
theorem withFetchWord_toNat (s : State) (w : InstrWord) : s.withFetchWord 32 w.toNat = s.placeFetchWord w := by
  rw [State.withFetchWord, Nat.mod_eq_of_lt w.isLt, BitVec.ofNat_toNat, BitVec.setWidth_eq]

theorem placeFetchWord_pc (s : State) (w : InstrWord) :
    (s.placeFetchWord w).pc = if s.pc.toNat % 4 = 0 ∧ s.pc.toNat ≤ 65532 then s.pc else 0 :=
  if_congr (fetchable_iff s.pc) rfl rfl

theorem placeFetchWord_mem (s : State) (w : InstrWord) :
    (s.placeFetchWord w).mem =
      memWriteBytes s.mem (s.placeFetchWord w).pc.toNat (bytesOfWord Config.params.byteOrder w) := rfl

theorem placeFetchWord_ready (s : State) (w : InstrWord) : ReadyToFetch (s.placeFetchWord w) := by
  refine ⟨rfl, ?_⟩
  rw [placeFetchWord_pc]
  split
  · assumption
  · decide

theorem fetchWith_placeFetchWord {s : State} (hm : s.mem.wf = true) (w : InstrWord) :
    fetchWith Config.params (s.placeFetchWord w) = .word w := by
  have hready := placeFetchWord_ready s w
  rw [fetch_ready hready, placeFetchWord_mem, wordAt_memWriteBytes hm hready.2.2]

/-- A fetched word that is no instruction takes ILLEGAL_OPCODE with its own address and opcode (60_exceptions.md R131). -/
theorem step_of_decode_error {s : State} {w : InstrWord} {e : DecodeError} (hrun : s.running = true)
    (hfetch : fetchWith Config.params s = .word w) (hdecode : decodeWith Config.params.opMap w = .error e) :
    step s = .next (s.advancePc.raiseIllegalOpcode (decodeFields w).op) := by
  rw [step, cycleWith_of_fetchWith hrun hfetch]
  simp [executeWord, hdecode]

/-- Settles O47: the word's bytes read back as the word at a pc the fetch serves, so the step executes it; the bytes are the only ones
written. -/
theorem placedFetchWordIsWhatTheNextStepRuns : Obligations.PlacedFetchWordIsWhatTheNextStepRuns := by
  rintro s t w hm rfl
  rw [withFetchWord_toNat]
  have hready := placeFetchWord_ready s w
  have hfetch := fetchWith_placeFetchWord hm w
  refine ⟨hready, hfetch, fun i hi => ?executed, fun herror => ?illegal, placeFetchWord_pc s w, memWriteBytes_wf _ hm,
    fun _ => rfl, fun a ha => ?others⟩
  case executed =>
    have hword : wordAt (s.placeFetchWord w).mem (s.placeFetchWord w).pc.toNat = w :=
      FetchResult.word.inj ((fetch_ready hready).symm.trans hfetch)
    exact stepRunsTheDecodedInstruction _ i hready (hword.symm ▸ hi)
  case illegal => exact ⟨_, step_of_decode_error hready.1 hfetch herror, (advancePc_raiseIllegalOpcode _ _).1⟩
  case others =>
    have hlookup : (s.placeFetchWord w).mem.lookup a = s.mem.lookup a := by
      rw [placeFetchWord_mem]
      exact lookup_memWriteBytes_outside _ hm (by rwa [bytesOfWord_length])
    simp only [Memory.readByte, hlookup]

/-- O47 with `ADDI R5, R0, 42` placed in a core that has halted at a pc the fetch does not serve: the core runs it at address 0. -/
theorem witness_placed_word_runs_at_zero :
    ∃ t, t = ((operandsCore 65537 1 2).halt .fetchMisaligned 65537 0).withFetchWord 32 0x08A0002A ∧ t.pc = 0 ∧
      step t = exec (.addi 5 0 42) { t with pc := t.pc + 4 } := by
  obtain ⟨-, -, hexecuted, -, hpc, -⟩ := placedFetchWordIsWhatTheNextStepRuns
    ((operandsCore 65537 1 2).halt .fetchMisaligned 65537 0) _ 0x08A0002A (by decide) rfl
  exact ⟨_, rfl, hpc, hexecuted _ (by decide)⟩

/-! ### The sub-blocks (40_control_loop.md R80, R84 to R88) -/

/-- BEQ as the sequencer's choice on the equality output (40_control_loop.md R86, R87). -/
theorem exec_beq (rs1 rs2 : RegIdx) (off : Int) (s : State) :
    exec (.beq rs1 rs2 off) s =
      .next (if aluEqual (s.readReg rs1) (s.readReg rs2) then s.setPc (branchTarget s.pc off) else s) := rfl

/-- The row of an opcode's control signals does what the arm of its instruction does, on the operands the layout selects (R88). -/
theorem execWith_instrOfFields {p : Params} (hslot : p.liSlot = .fault) {f : Fields} {n : Opcode}
    (hop : p.opMap.number n = f.op) (s : State) :
    execWith p (instrOfFields f n) s = .next (datapathExecute (controlOf (some n)) f s.currentAddr s) := by
  cases n with
  | exit | add | sub => rfl
  | addi =>
    rw [instrOfFields, execWith, exec_addi, immOperand_toInt]
    rfl
  | li =>
    rw [instrOfFields, execWith_liSlot_fault hslot, hop]
    rfl
  | beq =>
    rw [instrOfFields, execWith, exec_beq, branchTarget, immOperand_toInt]
    rfl
  | jmp =>
    rw [instrOfFields, execWith, exec_jmp, branchTarget, immOperand_toInt]
    rfl

/-- The blocks compute the execution of every word; one with no name has the row of "any other value" (R88). -/
theorem executeWord_eq_datapathExecute {p : Params} (hslot : p.liSlot = .fault) (w : InstrWord) (s : State) :
    executeWord p w s =
      .next (datapathExecute (controlOf (opcodeNamed? p.opMap (decodeFields w).op)) (decodeFields w) s.currentAddr s) := by
  obtain ⟨n, hn, hdecode⟩ | ⟨hnone, hdecode⟩ := decodeWith_cases p.opMap w
  · rw [executeWord_of_decodeWith hdecode, hn, execWith_instrOfFields hslot (opcodeNamed?_some hn)]
  · rw [executeWord, hdecode, hnone]
    rfl

/-- A running core of the five blocks acts on the fetched word after the pc's advance (R83, R86). -/
theorem datapathCycle_of_fetchWith {p : Params} {s : State} {w : InstrWord} (hrun : s.running = true)
    (hfetch : fetchWith p s = .word w) :
    datapathCycle p s =
      .next (datapathExecute (controlOf (opcodeNamed? p.opMap (decodeFields w).op)) (decodeFields w) s.pc s.advancePc) := by
  rw [datapathCycle, if_pos hrun, hfetch]

/-- Settles O42: the two designs are one in Halted and where the fetch gives no word, and the blocks compute the execution of a fetched word
on the advanced state. -/
theorem subBlocksComputeTheStep : Obligations.SubBlocksComputeTheStep := by
  intro p s hslot
  cases hrun : s.running with
  | false =>
    have hoff : ¬ s.running = true := by rw [hrun]; exact Bool.false_ne_true
    rw [datapathCycle, cycleWith, if_neg hoff, if_neg hoff]
  | true =>
    cases hfetch : fetchWith p s with
    | word w =>
      rw [datapathCycle_of_fetchWith hrun hfetch, cycleWith_of_fetchWith hrun hfetch, executeWord_eq_datapathExecute hslot,
        advancePc_currentAddr]
    | trap cause => rw [datapathCycle, cycleWith, if_pos hrun, if_pos hrun, hfetch]
    | fault f => exact absurd hfetch (fetchWith_ne_fault p s f)

/-- O42 under parameters other than the machine's, on the LI_SLOT word of `bigEndianLiSlotCore`. -/
theorem witness_subBlocks_bigEndian_bytewise :
    ∃ t, datapathCycle { byteOrder := .big, misalignedFetch := .bytewise } bigEndianLiSlotCore = .next t ∧
      HaltedWith t .illegalOpcode 10 3 := by
  obtain ⟨t, ht, hrecord, -⟩ := witness_liSlot_fault_bigEndian_bytewise
  exact ⟨t, (subBlocksComputeTheStep _ _ rfl).trans ht, hrecord⟩

/-! ### The words of statements and of the test vectors (30_encoding.md R66 to R71) -/

/-- The instruction a statement names, its register numbers masked (30_encoding.md R65 to R71). -/
def instrOfStmt : AsmStmt → Instr
  | .exit => .exit
  | .li rd imm => .addi (regField rd) 0 imm
  | .sub rd rs1 rs2 => .sub (regField rd) (regField rs1) (regField rs2)
  | .beq rs1 rs2 off => .beq (regField rs1) (regField rs2) off
  | .jmp off => .jmp off
  | .add rd rs1 rs2 => .add (regField rd) (regField rs1) (regField rs2)
  | .addi rd rs1 imm => .addi (regField rd) (regField rs1) imm

/-- The encoders' masks make the word of a statement the canonical word of its instruction. -/
theorem encodeStmt_eq_encodeWith (m : OpMap) (s : AsmStmt) : encodeStmt m s = encodeWith m (instrOfStmt s) := by
  cases s with
  | exit | jmp => rfl
  | sub | add => simp [encodeStmt, instrOfStmt, encodeWith, encodeR]
  | li | addi => simp [encodeStmt, instrOfStmt, encodeWith, encodeI]
  | beq => simp [encodeStmt, instrOfStmt, encodeWith, encodeB]

theorem decodeWith_encodeStmt {m : OpMap} (hm : m.wellFormed = true) {s : AsmStmt} (hs : (instrOfStmt s).wellFormed = true) :
    decodeWith m (encodeStmt m s) = .ok (instrOfStmt s) := by
  rw [encodeStmt_eq_encodeWith]
  exact decodeOfEncodeIsTheInstruction m _ hm hs

/-- Settles O49, from the round trip of the instruction each statement names; the masks need no bound on the register numbers. -/
theorem assembledStatementsDecodeAsWritten : Obligations.AssembledStatementsDecodeAsWritten := by
  intro m a b c n hm _ _ _ hlo hhi
  have hn : immInRange n = true := (immInRange_iff n).2 ⟨hlo, hhi⟩
  exact ⟨decodeWith_encodeStmt (s := .exit) hm rfl, decodeWith_encodeStmt (s := .li a n) hm hn,
    decodeWith_encodeStmt (s := .sub a b c) hm rfl, decodeWith_encodeStmt (s := .beq a b n) hm hn,
    decodeWith_encodeStmt (s := .jmp n) hm hn, decodeWith_encodeStmt (s := .add a b c) hm rfl,
    decodeWith_encodeStmt (s := .addi a b n) hm hn⟩

/-- O49 on `LI R31, -32768` under a map that gives ADDI and LI each other's default number. -/
theorem witness_assembled_li : decodeWith { addi := 3, li := 2 } 0x0FE08000 = .ok (.addi 31 0 (-32768)) := by
  have hword : encodeStmt { addi := 3, li := 2 } (.li 31 (-32768)) = 0x0FE08000 := by decide
  obtain ⟨-, hli, -⟩ := assembledStatementsDecodeAsWritten { addi := 3, li := 2 } 31 0 0 (-32768) (by decide) (by decide)
    (by decide) (by decide) (by decide) (by decide)
  rwa [hword] at hli

/-- Settles O8: eleven fixed words, each decoded by evaluation. -/
theorem wordsOfTheTestVectorsDecode : Obligations.WordsOfTheTestVectorsDecode :=
  ⟨decode_zero, by decide, by decide, by decide, by decide, by decide, by decide, by decide, by decide, by decide, by decide⟩

end Sys2Proof.Machine
end
